-- ==== Sys2Proof/Word.lean ====
section
/-! DEFINITION. The machine word (00_scope.md R8, R10) and the byte memory is written down in (Host.Cell). -/

namespace Sys2Proof

/-- A Word: the 16-bit pattern every memory cell, general register and `pc` holds (00_scope.md R10). `+` on it is
addition modulo 2^16, `&&&` bitwise AND, `~~~` the complement over all 16 bits. -/
abbrev Word := BitVec 16

/-- Half of a Word, as `Host.Cell` stores it. The core itself has no bytes (20_memory.md R45). -/
abbrev Byte := BitVec 8

end Sys2Proof
end

