-- ==== Sys2Proof/Syntax.lean ====
section
/-! DEFINITION. The instructions: one constructor per row of spec/opcode_table.json (00_scope.md R2). -/

namespace Sys2Proof

/-- The seven instruction forms (30_encoding.md R73). A register operand is an index, checked against 0..7 where it is
used (10_state.md R21); an immediate is the field as it stands in the word, extended where it is used (R65, R72). -/
inductive Instr where
  /-- `ADD DR, SR1, SR2` (41_alu.md R90) -/
  | addReg (dr sr1 sr2 : Nat)
  /-- `ADD DR, SR1, #imm5` (41_alu.md R91) -/
  | addImm (dr sr1 : Nat) (imm5 : BitVec 5)
  /-- `AND DR, SR1, SR2` (41_alu.md R92) -/
  | andReg (dr sr1 sr2 : Nat)
  /-- `AND DR, SR1, #imm5` (41_alu.md R93) -/
  | andImm (dr sr1 : Nat) (imm5 : BitVec 5)
  /-- `NOT DR, SR1` (41_alu.md R94) -/
  | not (dr sr1 : Nat)
  /-- `BR{n}{z}{p} off9`, the mask ordered (N, Z, P) from its most significant bit (42_branch.md R100) -/
  | br (mask : BitVec 3) (off9 : BitVec 9)
  /-- `LDI DR, off9` (43_load_indirect.md R110) -/
  | ldi (dr : Nat) (off9 : BitVec 9)
deriving DecidableEq, Repr

end Sys2Proof
end

