-- ==== Sys2Proof/WellFormed.lean ====
section
/-! DEFINITION. Which terms of Instr stand for an instruction word: every register index names one of R0..R7
(10_state.md R21). Immediates and masks have exactly their field's width, so they need no check. -/

namespace Sys2Proof

/-- A register operand names one of R0..R7 (10_state.md R21). -/
def isGprIndex (i : Nat) : Bool := decide (i < 8)

/-- The check of an instruction: each of its register operands is a general-register index. -/
def Instr.wellFormed : Instr → Bool
  | .addReg dr sr1 sr2 => isGprIndex dr && isGprIndex sr1 && isGprIndex sr2
  | .addImm dr sr1 _ => isGprIndex dr && isGprIndex sr1
  | .andReg dr sr1 sr2 => isGprIndex dr && isGprIndex sr1 && isGprIndex sr2
  | .andImm dr sr1 _ => isGprIndex dr && isGprIndex sr1
  | .not dr sr1 => isGprIndex dr && isGprIndex sr1
  | .br _ _ => true
  | .ldi dr _ => isGprIndex dr

/-- `i` is well formed. -/
abbrev Instr.WellFormed (i : Instr) : Prop := i.wellFormed = true

end Sys2Proof
end

