-- ==== Sys2Proof/Decode.lean ====
section
/-! DEFINITION. The FieldDecoder (30_encoding.md R61), the opcode assignment (R62), the decoder as one total function
of a word (R73) and, after it, an encoder written from the formats of R63 to R69. -/

namespace Sys2Proof

/-! ### The opcode assignment: the configuration table of R62. The values of BR, AND, NOT and LDI are the spec's own
decision D1, taken from LC-3 (PRESUMED, unsafe, log 5). -/

/-- BR, 0x0 (D1: the spec's decision). -/
def opcodeBr : BitVec 4 := 0b0000#4
/-- ADD, 0x1 (the source's own bit strings). -/
def opcodeAdd : BitVec 4 := 0b0001#4
/-- AND, 0x5 (D1). -/
def opcodeAnd : BitVec 4 := 0b0101#4
/-- NOT, 0x9 (D1). -/
def opcodeNot : BitVec 4 := 0b1001#4
/-- LDI, 0xA (D1). -/
def opcodeLdi : BitVec 4 := 0b1010#4

/-! ### The fields of R61, under the source's names -/

/-- `opcode(ins)` = ins[15:12]. -/
def opcode (ins : Word) : BitVec 4 := ins.extractLsb' 12 4
/-- `destReg(ins)` = ins[11:9]. -/
def destReg (ins : Word) : BitVec 3 := ins.extractLsb' 9 3
/-- `srcReg1(ins)` = ins[8:6]. -/
def srcReg1 (ins : Word) : BitVec 3 := ins.extractLsb' 6 3
/-- `isImmediateMode(ins)` = ins[5], 1 for an immediate operand. -/
def isImmediateMode (ins : Word) : Bool := ins.getLsbD 5
/-- `srcReg2(ins)` = ins[2:0]. -/
def srcReg2 (ins : Word) : BitVec 3 := ins.extractLsb' 0 3
/-- `immediate5(ins)` = ins[4:0]. -/
def immediate5 (ins : Word) : BitVec 5 := ins.extractLsb' 0 5
/-- `pcOffset9(ins)` = ins[8:0]. -/
def pcOffset9 (ins : Word) : BitVec 9 := ins.extractLsb' 0 9
/-- `branchCondMask(ins)` = ins[11:9], the bits that DR has in the other formats. -/
def branchCondMask (ins : Word) : BitVec 3 := ins.extractLsb' 9 3

/-! ### The decoder -/

/-- What a word decodes to: an instruction, or INVALID with its opcode (R67, R73). -/
inductive Decoded where
  | instr (i : Instr)
  | invalid (op : BitVec 4)
deriving DecidableEq, Repr

/-- The decoder of R73, case by case in its order. Bits a format does not name are not read (R70; D8, log 15). -/
def decode (ins : Word) : Decoded :=
  if opcode ins = opcodeAdd then
    if isImmediateMode ins then
      .instr (.addImm (destReg ins).toNat (srcReg1 ins).toNat (immediate5 ins))
    else
      .instr (.addReg (destReg ins).toNat (srcReg1 ins).toNat (srcReg2 ins).toNat)
  else if opcode ins = opcodeAnd then
    if isImmediateMode ins then
      .instr (.andImm (destReg ins).toNat (srcReg1 ins).toNat (immediate5 ins))
    else
      .instr (.andReg (destReg ins).toNat (srcReg1 ins).toNat (srcReg2 ins).toNat)
  else if opcode ins = opcodeNot then
    .instr (.not (destReg ins).toNat (srcReg1 ins).toNat)
  else if opcode ins = opcodeBr then
    .instr (.br (branchCondMask ins) (pcOffset9 ins))
  else if opcode ins = opcodeLdi then
    .instr (.ldi (destReg ins).toNat (pcOffset9 ins))
  else
    .invalid (opcode ins)

/-- The word the opcode table's bits make: the table's bit numbering is the word's own (00_scope.md R9), and an
instruction is one word (R60), so bits above the first `nbits` are zero. -/
def tableWord (nbits w : Nat) : Word := BitVec.ofNat 16 (w % 2 ^ nbits)

/-- The instruction the decoder reads from a table row's bits; none where it answers INVALID. -/
def decodeTableWord (nbits w : Nat) : Option Instr :=
  match decode (tableWord nbits w) with
  | .instr i => some i
  | .invalid _ => none

/-! ### The encoder -/

/-- A register index as its 3-bit field (R61). -/
def regField (i : Nat) : BitVec 3 := BitVec.ofNat 3 i

/-- The word of a well-formed instruction, by the formats of R63, R64, R66, R68 and R69. Of the bits R70 has ignored,
ADD's and AND's are written 00 (DESIGN CHOICE, safe, log 17) and NOT's 111111, as the assembler of R74 writes them. -/
def encode : Instr → Word
  | .addReg dr sr1 sr2 => opcodeAdd ++ regField dr ++ regField sr1 ++ 0#1 ++ 0#2 ++ regField sr2
  | .addImm dr sr1 imm5 => opcodeAdd ++ regField dr ++ regField sr1 ++ 1#1 ++ imm5
  | .andReg dr sr1 sr2 => opcodeAnd ++ regField dr ++ regField sr1 ++ 0#1 ++ 0#2 ++ regField sr2
  | .andImm dr sr1 imm5 => opcodeAnd ++ regField dr ++ regField sr1 ++ 1#1 ++ imm5
  | .not dr sr1 => opcodeNot ++ regField dr ++ regField sr1 ++ 0b111111#6
  | .br mask off9 => opcodeBr ++ mask ++ off9
  | .ldi dr off9 => opcodeLdi ++ regField dr ++ off9

/-- The bits of an instruction's word that its format names; the others are ignored (R70). -/
def namedBits : Instr → Word
  | .addReg _ _ _ | .andReg _ _ _ => 0xFFE7#16
  | .not _ _ => 0xFFC0#16
  | .addImm _ _ _ | .andImm _ _ _ | .br _ _ | .ldi _ _ => 0xFFFF#16

end Sys2Proof
end

