-- ==== Sys2Proof/Config.lean ====
section
/-! DEFINITION. What the spec leaves to the implementation: the three OPEN parameters of 00_scope.md R8. The opcode
assignment, which R62 asks to hold as one table, stands in Sys2Proof/Decode.lean. -/

namespace Sys2Proof

/-- The three mutually exclusive states of the condition register (10_state.md R24). Exactly one holds at any
instant (R26), which is why this is a type of three values and not three bits. -/
inductive Cond where
  /-- NEGATIVE -/
  | n
  /-- ZERO -/
  | z
  /-- POSITIVE -/
  | p
deriving DecidableEq, Repr

/-- The OPEN parameters a reset takes as arguments (00_scope.md R8; 92_eei_decisions.md D5, D6, D7). A claim about the
machine after reset is made for every value of them (70_reset_and_hazards.md R154). -/
structure ResetParams where
  /-- `COND_RESET`, one of N, Z, P (D5). -/
  condReset : Cond
  /-- `GPR_RESET[i]`, any Word for each register (D6). -/
  gprReset : Fin 8 → Word
  /-- `MEM_INIT[a]`, any Word for each address (D7). -/
  memInit : Word → Word

/-- DESIGN CHOICE, unsafe (logs 1, 2, 3): the one choice of the OPEN parameters at which the host interface's reset
state stands. The spec gives none; no statement rests on these values. -/
def ResetParams.named : ResetParams where
  condReset := .z
  gprReset := fun _ => 0x0000#16
  memInit := fun _ => 0x0000#16

end Sys2Proof
end

