-- ==== Sys2Proof/Machine/State.lean ====
section
/-! DEFINITION. Every piece of state the spec gives the core (10_state.md, 20_memory.md R40, 60_exceptions.md R120),
the state after reset, and the host's two reason types. -/

namespace Sys2Proof.Machine

/-- The run state (10_state.md R30). -/
inductive RunState where
  | running
  /-- Terminal; nothing enters it (R29). -/
  | halted
  /-- Terminal; entered by a fatal error (60_exceptions.md R126). -/
  | faulted
deriving DecidableEq, Repr

/-- The fatal errors with the information each records (60_exceptions.md R120; D9, D11). Their numeric codes are
`FatalError.code`. -/
inductive FatalError where
  /-- A memory address outside 0..65535; the address is an integer (R121). -/
  | outOfBounds (addr : Int)
  /-- A register index outside the valid range of its context (R122). -/
  | invalidRegister (index : Int)
  /-- A fetched opcode that is not one of the five: the opcode, the word, its address (R123). -/
  | invalidOpcode (op : BitVec 4) (ins : Word) (a : Word)
  /-- `setcc` called with an index outside 0..7 (R124). -/
  | internalFlagIndex (index : Int)
deriving DecidableEq, Repr

/-- The MemoryBank (20_memory.md R40) as a finite list: word address `a` is the bytes at indices `2 * a` (its low
half) and `2 * a + 1`, which no access can tell apart from a list of words (R45, log 4). Its one canonical form is
`Memory.wf`; what an unlisted index reads as is `Memory.unlisted`. -/
abbrev Memory := List Host.Cell

/-- The state of the core (10_state.md R20 to R34). -/
structure State where
  /-- R0..R7 (R20). -/
  regs : Vector Word 8
  /-- The program counter, a word address (R22). -/
  pc : Word
  /-- The condition register (R24). -/
  cond : Cond
  /-- The halted flag (R29). -/
  halted : Bool
  /-- RUNNING, HALTED or FAULTED; the spec's `state` (R30). -/
  runState : RunState
  /-- The fault record (R30); empty while RUNNING. -/
  fault : Option FatalError
  /-- The MemoryBank (20_memory.md R40). -/
  mem : Memory
deriving DecidableEq, Repr

/-- No step of this machine stops by a fault of the host's interface, so this type has no constructor: every error
the spec names is fatal by entering the state FAULTED (60_exceptions.md R126), which is a next state, and stepping
goes on as a no-op (40_cycle.md R80). Safe: nothing is left out by it. -/
inductive Fault where
deriving DecidableEq, Repr

/-- Why the model has no transition. No step is refused; the last three are host requests the spec refuses
(70_reset_and_hazards.md R153, R160; D18). -/
inductive Refusal where
  /-- Raised by an arm of `exec` whose instruction has no meaning yet; every arm has one, so nothing raises it. Safe. -/
  | notModelled (mnemonic : String)
  /-- Raised by `transact`: the host supplied a value outside 0..0xFFFF (R153). Unsafe if a real host can (D18, log 13). -/
  | hostValueNotWord (v : Int)
  /-- Raised by `transact`: WriteReg(9, v) with v not exactly one flag (R160). Unsafe if a real host can (D18, log 13). -/
  | hostCondNotOneFlag (v : Word)
  /-- Raised by `transact`: LoadImage when a step was requested or a Terminate came since the last Reset (R153). Unsafe
  if a real host can (D18, logs 9, 13). -/
  | hostLoadAfterFirstStep
deriving DecidableEq, Repr

/-- The machine right after reset (10_state.md R34, 70_reset_and_hazards.md R150): `pc`, `halted`, `state` and `fault`
as the spec gives them, the three OPEN parameters at the values logs 1, 2 and 3 name (`ResetParams.named`; DESIGN
CHOICE, unsafe), memory with nothing listed. `State.resetWith` is the same state for every value of the parameters. -/
def State.reset : State where
  regs := Vector.replicate 8 0x0000#16
  pc := 0x3000#16
  cond := .z
  halted := false
  runState := .running
  fault := none
  mem := []

end Sys2Proof.Machine
end

