-- ==== Sys2Proof/Machine/Ops.lean ====
section
/-! DEFINITION. The named operations over registers and memory, raising a fatal error, the fetch, and the reset action
with its parameters. -/

namespace Sys2Proof.Machine

/-! ### Registers (10_state.md R20, R22) -/

/-- `x[i]`. -/
def State.gpr (s : State) (i : Fin 8) : Word := s.regs.get i

/-- `x[i] <- v`: all 16 bits. -/
def State.setGpr (s : State) (i : Fin 8) (v : Word) : State := { s with regs := s.regs.set i.val v i.isLt }

/-- `pc <- target`. -/
def State.setPc (s : State) (target : Word) : State := { s with pc := target }

/-- `cond <- f`. -/
def State.setCond (s : State) (f : Cond) : State := { s with cond := f }

/-- The memory replaced. -/
def State.setMem (s : State) (m : Memory) : State := { s with mem := m }

/-- The next word address, modulo 2^16 (10_state.md R23). -/
def nextPc (pc : Word) : Word := pc + 1#16

/-! ### Memory: the byte list -/

/-- How many byte indices the 65536 words take. -/
def byteCount : Nat := 131072

/-- What a byte index that is not listed reads as. DESIGN CHOICE, unsafe (log 3): the spec leaves the content of memory
before loading open (20_memory.md R48). -/
def Memory.unlisted : Byte := 0x00#8

/-- The canonical form: indices strictly rising and inside the address space, no entry equal to what an unlisted index
reads as. Equal memories are equal lists. -/
abbrev Memory.wf (m : Memory) : Prop :=
  m.Pairwise (fun c d => c.1 < d.1) ∧ ∀ c ∈ m, c.1 < byteCount ∧ c.2 ≠ Memory.unlisted

/-- The byte at index `k`. -/
def Memory.readByte : Memory → Nat → Byte
  | [], _ => Memory.unlisted
  | (j, b) :: m, k => if j = k then b else Memory.readByte m k

/-- Entry `k` holding `v`, in front of `m`; nothing where an unlisted index reads as `v`. -/
def Memory.consByte (k : Nat) (v : Byte) (m : Memory) : Memory :=
  if v = Memory.unlisted then m else (k, v) :: m

/-- `m` with the byte at index `k` replaced by `v`, in canonical form. -/
def Memory.writeByte : Memory → Nat → Byte → Memory
  | [], k, v => Memory.consByte k v []
  | (j, b) :: m, k, v =>
    if k < j then Memory.consByte k v ((j, b) :: m)
    else if k = j then Memory.consByte k v m
    else (j, b) :: Memory.writeByte m k v

/-! ### Memory: the words of the MemoryBank (20_memory.md R40 to R42) -/

/-- Where a word's two halves stand in the byte list (DESIGN CHOICE, log 4; unobservable, R45). -/
def loIndex (a : Word) : Nat := 2 * a.toNat
/-- See `loIndex`. -/
def hiIndex (a : Word) : Nat := 2 * a.toNat + 1

/-- Bits 7..0. -/
def lowByte (v : Word) : Byte := v.extractLsb' 0 8
/-- Bits 15..8. -/
def highByte (v : Word) : Byte := v.extractLsb' 8 8

/-- `M[a]`. -/
def Memory.readWord (m : Memory) (a : Word) : Word := m.readByte (hiIndex a) ++ m.readByte (loIndex a)

/-- `M[a] <- v`. -/
def Memory.writeWord (m : Memory) (a : Word) (v : Word) : Memory :=
  (m.writeByte (loIndex a) (lowByte v)).writeByte (hiIndex a) (highByte v)

/-- An integer in 0..65535 as a Word; none for any other (20_memory.md R41). -/
def wordOf? : Int → Option Word
  | .ofNat n => if n < 65536 then some (BitVec.ofNat 16 n) else none
  | .negSucc _ => none

/-- `MemRead(addr, 1)`: never clamped, never wrapped (20_memory.md R41, 60_exceptions.md R121). -/
def memRead (m : Memory) (addr : Int) : Except FatalError Word :=
  match wordOf? addr with
  | none => .error (.outOfBounds addr)
  | some a => .ok (m.readWord a)

/-- `MemWrite(addr, 1, v)` (20_memory.md R42). -/
def memWrite (m : Memory) (addr : Int) (v : Word) : Except FatalError Memory :=
  match wordOf? addr with
  | none => .error (.outOfBounds addr)
  | some a => .ok (m.writeWord a v)

/-- A Word used as an address (00_scope.md R10). -/
def addrOf (a : Word) : Int := (a.toNat : Int)

/-- `readIndirect(a)`: pointer first; no second read where the first raises (20_memory.md R43). -/
def readIndirect (m : Memory) (a : Word) : Except FatalError Word :=
  match memRead m (addrOf a) with
  | .error e => .error e
  | .ok p => memRead m (addrOf p)

/-! ### Fatal errors (60_exceptions.md R120, R126) -/

/-- The error's number (R120). -/
def FatalError.code : FatalError → Nat
  | .outOfBounds _ => 1
  | .invalidRegister _ => 2
  | .invalidOpcode _ _ _ => 3
  | .internalFlagIndex _ => 4

/-- The number the host reads for a fault record; 0 is none (R120). -/
def faultCode : Option FatalError → Nat
  | none => 0
  | some e => e.code

/-- `raise E(info)`: enter FAULTED with the record, nothing else (R126). HALTED and FAULTED are terminal and a record
is never overwritten (10_state.md R30, R128), so only a RUNNING core changes (DEDUCED, log 7). -/
def State.raise (s : State) (e : FatalError) : State :=
  match s.runState with
  | .running => { s with runState := .faulted, fault := some e }
  | .halted => s
  | .faulted => s

/-- The outcome of an instruction rule begun in `s`: its state, or `s` with the error raised. A rule that raises has
written nothing (40_cycle.md R85). -/
def settle (s : State) (r : Except FatalError State) : Host.Outcome State Fault Refusal :=
  match r with
  | .ok t => .next t
  | .error e => .next (s.raise e)

/-! ### Fetch (40_cycle.md R81) -/

/-- Read the word at `pc`, then increment `pc`: the word and the state the instruction executes in. -/
def fetch (s : State) : Except FatalError (Word × State) :=
  match memRead s.mem (addrOf s.pc) with
  | .error e => .error e
  | .ok ins => .ok (ins, s.setPc (nextPc s.pc))

/-- `INVALID(op)` executed in `s`, the state after the fetch of `ins` at `a` (60_exceptions.md R123). -/
def execInvalid (op : BitVec 4) (ins a : Word) (s : State) : Host.Outcome State Fault Refusal :=
  .next (s.raise (.invalidOpcode op ins a))

/-- `s` with `ins` stored where the next step fetches (log 12). The fetch needs a RUNNING core (40_cycle.md R80), so the sequencer
is put back to RUNNING too; at reset it is already. -/
def State.placeWord (s : State) (ins : Word) : State :=
  { s with mem := s.mem.writeWord s.pc ins, halted := false, runState := .running, fault := none }

/-! ### Reset (70_reset_and_hazards.md R150) -/

/-- The byte at index `k` of a memory whose words are `f`. -/
def byteOf (f : Word → Word) (k : Nat) : Byte :=
  if k % 2 = 0 then lowByte (f (BitVec.ofNat 16 (k / 2))) else highByte (f (BitVec.ofNat 16 (k / 2)))

/-- The canonical memory whose words are `f`: any `MEM_INIT` (20_memory.md R48). -/
@[irreducible] def Memory.ofFn (f : Word → Word) : Memory :=
  (List.range byteCount).foldr (fun k m => Memory.consByte k (byteOf f k) m) []

/-- The reset action for every value of the OPEN parameters (10_state.md R34, 70_reset_and_hazards.md R150). -/
def State.resetWith (p : ResetParams) : State where
  regs := Vector.ofFn p.gprReset
  pc := 0x3000#16
  cond := p.condReset
  halted := false
  runState := .running
  fault := none
  mem := Memory.ofFn p.memInit

end Sys2Proof.Machine
end

