-- ==== Sys2Proof/Machine/Flags.lean ====
section
/-! DEFINITION. The condition register: its one-hot encoding, `setcc`, and the branch test. -/

namespace Sys2Proof.Machine

/-- The one-hot value of `cond`, ordered (N, Z, P) from the most significant bit (10_state.md R25; D2). -/
def condBits : Cond → BitVec 3
  | .n => 0b100#3
  | .z => 0b010#3
  | .p => 0b001#3

/-- The condition with these bits; none where they are not exactly one flag. -/
def condOfBits? (v : Word) : Option Cond :=
  if v = 0b100#16 then some .n
  else if v = 0b010#16 then some .z
  else if v = 0b001#16 then some .p
  else none

/-- The flag of a value: Z if it is 0, else N if bit 15 is set, else P (10_state.md R27). -/
def flagOf (v : Word) : Cond :=
  if v = 0x0000#16 then .z
  else if v.getLsbD 15 then .n
  else .p

/-- An index into R0..R7, or none. -/
def gprIndex? (i : Nat) : Option (Fin 8) := if h : i < 8 then some ⟨i, h⟩ else none

/-- `setcc(i)`: recompute `cond` from register i; any other index is an internal error (10_state.md R27,
60_exceptions.md R124). -/
def setcc (i : Nat) (s : State) : Except FatalError State :=
  match gprIndex? i with
  | none => .error (.internalFlagIndex i)
  | some r => .ok (s.setCond (flagOf (s.gpr r)))

/-- The branch test `(mask & COND) != 0` (42_branch.md R100; 90_conflicts.md C6). -/
def branchTaken (mask : BitVec 3) (c : Cond) : Bool := mask &&& condBits c != 0#3

end Sys2Proof.Machine
end

