-- ==== Sys2Proof/Machine/Operands.lean ====
section
/-! DEFINITION. The operand forms (30_encoding.md R72): a register, a sign-extended immediate, a PC-relative address;
and writing a result. -/

namespace Sys2Proof.Machine

/-- `sext_N(v)` to 16 bits, in the words of 30_encoding.md R65: with bit N-1 set, OR in all 1-bits from bit N up. -/
def sext (n : Nat) (v : BitVec n) : Word :=
  if v.getLsbD (n - 1) then v.setWidth 16 ||| (0xFFFF#16 <<< n) else v.setWidth 16

/-- The immediate operand of ADD and AND: `sext_5(ins[4:0])` (R72). -/
def immOperand (imm5 : BitVec 5) : Word := sext 5 imm5

/-- The address `pc + sext_9(PCoffset9)` modulo 2^16, `pc` being the incremented one (R72; D4). -/
def pcRelative (off9 : BitVec 9) (s : State) : Word := s.pc + sext 9 off9

/-- A general-purpose operand index validated to 0..7 (10_state.md R21, 60_exceptions.md R122). -/
def gprOperand (i : Nat) : Except FatalError (Fin 8) :=
  match gprIndex? i with
  | none => .error (.invalidRegister i)
  | some r => .ok r

/-- `x[DR] <- v`, then `setcc(DR)`: the last two lines of every rule that writes a register (10_state.md R28). -/
def writeResult (d : Fin 8) (v : Word) (s : State) : Except FatalError State := setcc d.val (s.setGpr d v)

end Sys2Proof.Machine
end

