-- ==== Sys2Proof/Machine/Alu.lean ====
section
/-! DEFINITION. The ALU operations ADD, AND, NOT (41_alu.md). `pc` is already the instruction's address plus one. -/

namespace Sys2Proof.Machine

/-- The shape of ADD and AND, register form: validate DR, SR1, SR2 in that order (log 6), read both sources, write.
41_alu.md R90, R92; 40_cycle.md R86. -/
def aluReg (f : Word → Word → Word) (dr sr1 sr2 : Nat) (s : State) : Except FatalError State := do
  let d ← gprOperand dr
  let r1 ← gprOperand sr1
  let r2 ← gprOperand sr2
  writeResult d (f (s.gpr r1) (s.gpr r2)) s

/-- The shape of an operation on SR1 alone: ADD and AND immediate (41_alu.md R91, R93) and NOT (R94). -/
def aluOne (f : Word → Word) (dr sr1 : Nat) (s : State) : Except FatalError State := do
  let d ← gprOperand dr
  let r1 ← gprOperand sr1
  writeResult d (f (s.gpr r1)) s

/-- ADD, register form (41_alu.md R90): the sum modulo 2^16; no carry or overflow is kept (R95). -/
def execAddReg (dr sr1 sr2 : Nat) (s : State) : Host.Outcome State Fault Refusal :=
  settle s (aluReg (fun a b => a + b) dr sr1 sr2 s)

/-- ADD, immediate form (41_alu.md R91). -/
def execAddImm (dr sr1 : Nat) (imm5 : BitVec 5) (s : State) : Host.Outcome State Fault Refusal :=
  settle s (aluOne (fun a => a + immOperand imm5) dr sr1 s)

/-- AND, register form (41_alu.md R92). -/
def execAndReg (dr sr1 sr2 : Nat) (s : State) : Host.Outcome State Fault Refusal :=
  settle s (aluReg (fun a b => a &&& b) dr sr1 sr2 s)

/-- AND, immediate form (41_alu.md R93): the immediate is sign-extended. -/
def execAndImm (dr sr1 : Nat) (imm5 : BitVec 5) (s : State) : Host.Outcome State Fault Refusal :=
  settle s (aluOne (fun a => a &&& immOperand imm5) dr sr1 s)

/-- NOT (41_alu.md R94): all 16 bits complemented (90_conflicts.md C5). -/
def execNot (dr sr1 : Nat) (s : State) : Host.Outcome State Fault Refusal :=
  settle s (aluOne (fun a => ~~~a) dr sr1 s)

end Sys2Proof.Machine
end

