-- ==== Sys2Proof/Machine/Branch.lean ====
section
/-! DEFINITION. Branch logic: BR (42_branch.md). -/

namespace Sys2Proof.Machine

/-- BR (42_branch.md R100): taken, `pc` becomes the PC-relative target; not taken, it stays. No flag is written. -/
def execBr (mask : BitVec 3) (off9 : BitVec 9) (s : State) : Host.Outcome State Fault Refusal :=
  .next (if branchTaken mask s.cond then s.setPc (pcRelative off9 s) else s)

end Sys2Proof.Machine
end

