-- ==== Sys2Proof/Machine/LoadIndirect.lean ====
section
/-! DEFINITION. The one memory operation: LDI (43_load_indirect.md). -/

namespace Sys2Proof.Machine

/-- The rule of LDI: DR validated, then the two reads in order, then the writes (43_load_indirect.md R110,
60_exceptions.md R129). -/
def loadIndirect (dr : Nat) (off9 : BitVec 9) (s : State) : Except FatalError State := do
  let d ← gprOperand dr
  let v ← readIndirect s.mem (pcRelative off9 s)
  writeResult d v s

/-- LDI (43_load_indirect.md R110): `x[DR] <- M[M[pc + sext_9(PCoffset9)]]`, then `setcc(DR)`. -/
def execLdi (dr : Nat) (off9 : BitVec 9) (s : State) : Host.Outcome State Fault Refusal :=
  settle s (loadIndirect dr off9 s)

end Sys2Proof.Machine
end

