-- ==== Sys2Proof/Machine/Step.lean ====
section
/-! DEFINITION. One step of the sequencer (40_cycle.md R80 to R82). -/

namespace Sys2Proof.Machine

/-- One step: nothing unless RUNNING (R80); fetch, `pc` incremented before dispatch (R81); decode and dispatch (R82). -/
def step (s : State) : Host.Outcome State Fault Refusal :=
  match s.runState with
  | .running =>
    match fetch s with
    | .error e => .next (s.raise e)
    | .ok (ins, t) =>
      match decode ins with
      | .instr i => exec i t
      | .invalid op => execInvalid op ins s.pc t
  | .halted => .next s
  | .faulted => .next s

/-- `s` with the table's word stored at `pc`, so that the very next step fetches and runs it. -/
def State.withFetchWord (s : State) (nbits w : Nat) : State := s.placeWord (tableWord nbits w)

end Sys2Proof.Machine
end

