-- ==== Sys2Proof/Machine/Transactions.lean ====
section
/-! DEFINITION. The host transactions (70_reset_and_hazards.md R150 to R160), each atomic and between steps. -/

namespace Sys2Proof.Machine

/-! ### The image loader (R152) -/

/-- `START`, where the loader writes the first word of an image (00_scope.md R8). An integer: it is not wrapped. -/
def startAddress : Int := 0x3000

/-- Write the words at 0x3000 + i, 0x3000 + i + 1, … in order; the first address past 0xFFFF is an `OutOfBounds`, the
words before it stay written (R152; D16). The core with what was written, and the error if there was one. -/
def loadWords (i : Nat) : List Word → State → State × Option FatalError
  | [], s => (s, none)
  | w :: ws, s =>
    match memWrite s.mem (startAddress + i) w with
    | .error e => (s, some e)
    | .ok m => loadWords (i + 1) ws (s.setMem m)

/-! ### The ten slots of the register file (10_state.md R31; D13) -/

/-- What a slot index names. -/
inductive Slot where
  | gpr (i : Fin 8)
  | pc
  | cond
deriving DecidableEq, Repr

/-- The slot of an index; none outside 0..9. -/
def slotOf? : Int → Option Slot
  | .ofNat n => if n = 8 then some .pc else if n = 9 then some .cond else (gprIndex? n).map Slot.gpr
  | .negSucc _ => none

/-- A slot's value as the host reads it: `cond` as its one-hot number (R160). -/
def readSlot (k : Slot) (s : State) : Word :=
  match k with
  | .gpr i => s.gpr i
  | .pc => s.pc
  | .cond => (condBits s.cond).setWidth 16

/-! ### Run (40_cycle.md R83) -/

/-- Repeat the step while RUNNING, at most `budget` times. A run need not end (R83), so where the host stops looking,
or terminates it (70_reset_and_hazards.md R158), is an argument (log 11). -/
def runFor : Nat → State → Host.Outcome State Fault Refusal
  | 0, s => .next s
  | budget + 1, s =>
    match s.runState with
    | .running =>
      match step s with
      | .next t => runFor budget t
      | .fault e => .fault e
      | .refused e => .refused e
    | .halted => .next s
    | .faulted => .next s

/-! ### The transactions (R160) -/

/-- Where the host is in the order R153 and R158 prescribe; the host's bookkeeping, not state of the core. -/
inductive Phase where
  /-- After a reset, before the first step: an image may be loaded. -/
  | fresh
  /-- A Step or Run was requested. -/
  | started
  /-- A Terminate came: no further step is made. -/
  | terminated
deriving DecidableEq, Repr

/-- The core with the host's phase. -/
structure Session where
  core : State
  phase : Phase
deriving DecidableEq, Repr

/-- The session after a reset with the parameters `p`. -/
def Session.resetWith (p : ResetParams) : Session := ⟨State.resetWith p, .fresh⟩

/-- The requests of R160. Their numbers are integers, so that a request outside the architecture can be written down:
it raises an error or is refused. -/
inductive HostRequest where
  | reset
  | loadImage (ws : List Int)
  | step
  | run (budget : Nat)
  | terminate
  | readStatus
  | readReg (i : Int)
  | writeReg (i v : Int)
  | readMem (a : Int)
  | writeMem (a v : Int)
deriving DecidableEq, Repr

/-- What a transaction returns to the host: the values and the status of R160; `done` and `failed` are the model's
(logs 13, 20). -/
inductive HostReply where
  | done
  | value (v : Word)
  | status (r : RunState) (f : Option FatalError)
  /-- The transaction's own check (R160) raised an error. A Step or Run whose step raised one answers `done` (log 20). -/
  | failed
deriving DecidableEq, Repr

/-- The session and the reply a transaction ends in, or its refusal. -/
abbrev HostOutcome := Host.Outcome (Session × HostReply) Fault Refusal

/-- The host's words of an image, or the first value that is none (R153). -/
def hostWords : List Int → Except Int (List Word)
  | [] => .ok []
  | v :: vs =>
    match wordOf? v with
    | none => .error v
    | some w =>
      match hostWords vs with
      | .error u => .error u
      | .ok ws => .ok (w :: ws)

/-- The core replaced, with a reply. -/
def Session.answer (q : Session) (s : State) (r : HostReply) : HostOutcome := .next ({ q with core := s }, r)

/-- The transaction ends with error `e` (R160, 60_exceptions.md R126). -/
def Session.fail (q : Session) (e : FatalError) : HostOutcome := q.answer (q.core.raise e) .failed

/-- LoadImage: only after reset and before the first step (R152, R153; log 9). -/
def transactLoad (ws : List Int) (q : Session) : HostOutcome :=
  match q.phase with
  | .fresh =>
    match hostWords ws with
    | .error v => .refused (.hostValueNotWord v)
    | .ok words =>
      match loadWords 0 words q.core with
      | (s, none) => q.answer s .done
      | (s, some e) => { q with core := s }.fail e
  | .started => .refused .hostLoadAfterFirstStep
  | .terminated => .refused .hostLoadAfterFirstStep

/-- Step and Run, as at most `budget` steps: none is made after a Terminate (R158, log 8). The spec names no reply; that
it is done, also where a step raised an error, which the host then finds in the core's state and record (60_exceptions.md
R126), is the model's (DESIGN CHOICE, log 20). -/
def transactRun (budget : Nat) (q : Session) : HostOutcome :=
  match q.phase with
  | .terminated => q.answer q.core .done
  | .fresh | .started =>
    match runFor budget q.core with
    | .next s => .next (⟨s, .started⟩, .done)
    | .fault e => .fault e
    | .refused e => .refused e

/-- ReadReg (R160, R31). -/
def transactReadReg (i : Int) (q : Session) : HostOutcome :=
  match slotOf? i with
  | none => q.fail (.invalidRegister i)
  | some k => q.answer q.core (.value (readSlot k q.core))

/-- WriteReg: a value that is not a Word, or for `cond` not exactly one flag, is refused; the value is looked at first
(R160; log 10). -/
def transactWriteReg (i v : Int) (q : Session) : HostOutcome :=
  match wordOf? v with
  | none => .refused (.hostValueNotWord v)
  | some w =>
    match slotOf? i with
    | none => q.fail (.invalidRegister i)
    | some (.gpr r) => q.answer (q.core.setGpr r w) .done
    | some .pc => q.answer (q.core.setPc w) .done
    | some .cond =>
      match condOfBits? w with
      | none => .refused (.hostCondNotOneFlag w)
      | some f => q.answer (q.core.setCond f) .done

/-- ReadMem (R160; 20_memory.md R41). -/
def transactReadMem (a : Int) (q : Session) : HostOutcome :=
  match memRead q.core.mem a with
  | .error e => q.fail e
  | .ok v => q.answer q.core (.value v)

/-- WriteMem (R160; 20_memory.md R42). -/
def transactWriteMem (a v : Int) (q : Session) : HostOutcome :=
  match wordOf? v with
  | none => .refused (.hostValueNotWord v)
  | some w =>
    match memWrite q.core.mem a w with
    | .error e => q.fail e
    | .ok m => q.answer (q.core.setMem m) .done

/-- One transaction (R160). `p` is what a reset draws for the OPEN parameters (00_scope.md R8). -/
def transact (p : ResetParams) (r : HostRequest) (q : Session) : HostOutcome :=
  match r with
  | .reset => .next (Session.resetWith p, .done)
  | .loadImage ws => transactLoad ws q
  | .step => transactRun 1 q
  | .run budget => transactRun budget q
  | .terminate => .next ({ q with phase := .terminated }, .done)
  | .readStatus => q.answer q.core (.status q.core.runState q.core.fault)
  | .readReg i => transactReadReg i q
  | .writeReg i v => transactWriteReg i v q
  | .readMem a => transactReadMem a q
  | .writeMem a v => transactWriteMem a v q

end Sys2Proof.Machine
end

