-- ==== Sys2Proof/Safety.lean ====
section
/-! DEFINITION. What claims call a good state: the invariant of the core, and the end of a run. -/

namespace Sys2Proof.Machine

/-- The sequencer's three fields agree (10_state.md R30): `state` is HALTED exactly when `halted` is 1, and there is a
fault record exactly when `state` is FAULTED. -/
abbrev SequencerConsistent (s : State) : Prop :=
  (s.runState = .halted ↔ s.halted = true) ∧ (s.runState = .faulted ↔ s.fault.isSome = true)

/-- The invariant of the core: memory in its canonical form and the sequencer's fields in agreement. -/
abbrev State.Inv (s : State) : Prop := s.mem.wf ∧ SequencerConsistent s

/-- `Cond` classifies a value by sign and zero-ness (10_state.md R26, R27). -/
abbrev Classifies (c : Cond) (v : Word) : Prop :=
  (c = .z ↔ v.toInt = 0) ∧ (c = .n ↔ v.toInt < 0) ∧ (c = .p ↔ 0 < v.toInt)

/-- The eleven invalid opcode values (30_encoding.md R67). -/
def invalidOpcodes : List (BitVec 4) :=
  [0x2#4, 0x3#4, 0x4#4, 0x6#4, 0x7#4, 0x8#4, 0xB#4, 0xC#4, 0xD#4, 0xE#4, 0xF#4]

/-- The word the next step fetches (40_cycle.md R81). -/
def fetched (s : State) : Word := s.mem.readWord s.pc

/-- The frame of an instruction that writes register `d`: from `s` to `t` no other register, no byte of memory and
nothing of the sequencer changes, nor `pc`, which the fetch has already incremented. `d` and `cond` may. -/
def SameButResult (d : Fin 8) (s t : State) : Prop :=
  (∀ r, r ≠ d → t.gpr r = s.gpr r) ∧ t.pc = s.pc ∧ t.halted = s.halted ∧ t.runState = s.runState ∧
    t.fault = s.fault ∧ ∀ k, t.mem.readByte k = s.mem.readByte k

/-- The frame of an instruction that writes only `pc`. -/
def SameButPc (s t : State) : Prop :=
  (∀ r, t.gpr r = s.gpr r) ∧ t.cond = s.cond ∧ t.halted = s.halted ∧ t.runState = s.runState ∧
    t.fault = s.fault ∧ ∀ k, t.mem.readByte k = s.mem.readByte k

/-- A run from `s` ends in `t`: some number of steps while RUNNING leads to `t`, which is no longer RUNNING
(40_cycle.md R83, 70_reset_and_hazards.md R155). -/
def RunEnds (s t : State) : Prop := ∃ k, runFor k s = .next t ∧ t.runState ≠ .running

end Sys2Proof.Machine
end

