-- ==== Sys2Proof/Certificates/Slice0/Obligations.lean ====
section
/-! DEFINITION. The statements for the provers. Each docstring names the rule of spec/ it formalises. -/

open Sys2Proof Sys2Proof.Machine

/-! ### The seven instruction forms: which words they are, what they do, what they leave alone -/

/-- The rule of ADD, register form (41_alu.md R90): the words, the sum modulo 2^16, the flag of the result, the frame.
Any of DR, SR1, SR2 may coincide. That bits 4..3 of the word may hold anything is the spec's own decision D8
(30_encoding.md R70; log 15). -/
def Obligations.AddRegisterForm : Prop :=
  (∀ w : Word, w &&& 0xF020#16 = 0x1000#16 →
      decode w = .instr (.addReg (w.toNat / 512 % 8) (w.toNat / 64 % 8) (w.toNat % 8))) ∧
    ∀ (dr sr1 sr2 : Fin 8) (s : State), ∃ t, exec (.addReg dr sr1 sr2) s = .next t ∧
      (t.gpr dr).toNat = ((s.gpr sr1).toNat + (s.gpr sr2).toNat) % 65536 ∧
      Classifies t.cond (t.gpr dr) ∧ SameButResult dr s t

/-- 41_alu.md R91: as R90 with the signed immediate. -/
def Obligations.AddImmediateForm : Prop :=
  (∀ w : Word, w &&& 0xF020#16 = 0x1020#16 →
      decode w = .instr (.addImm (w.toNat / 512 % 8) (w.toNat / 64 % 8) (BitVec.ofNat 5 w.toNat))) ∧
    ∀ (dr sr1 : Fin 8) (imm5 : BitVec 5) (s : State), ∃ t, exec (.addImm dr sr1 imm5) s = .next t ∧
      ((t.gpr dr).toNat : Int) = ((s.gpr sr1).toNat + imm5.toInt) % 65536 ∧
      Classifies t.cond (t.gpr dr) ∧ SameButResult dr s t

/-- The rule of AND, register form (41_alu.md R92): bitwise AND of two registers, bit by bit. The opcode is the table's
entry for AND, whatever its value (the value is the spec's own decision D1, log 5; `FormatsAreExact` states it). That
bits 4..3 of the word may hold anything is the spec's own decision D8 (30_encoding.md R70; log 15). -/
def Obligations.AndRegisterForm : Prop :=
  (∀ w : Word, opcode w = opcodeAnd → isImmediateMode w = false →
      decode w = .instr (.andReg (w.toNat / 512 % 8) (w.toNat / 64 % 8) (w.toNat % 8))) ∧
    ∀ (dr sr1 sr2 : Fin 8) (s : State), ∃ t, exec (.andReg dr sr1 sr2) s = .next t ∧
      (∀ k, k < 16 → (t.gpr dr).getLsbD k = ((s.gpr sr1).getLsbD k && (s.gpr sr2).getLsbD k)) ∧
      Classifies t.cond (t.gpr dr) ∧ SameButResult dr s t

/-- 41_alu.md R93: as R92 with the sign-extended immediate, whose bits 15..5 all equal its bit 4. The opcode is the
table's entry for AND. -/
def Obligations.AndImmediateForm : Prop :=
  (∀ w : Word, opcode w = opcodeAnd → isImmediateMode w = true →
      decode w = .instr (.andImm (w.toNat / 512 % 8) (w.toNat / 64 % 8) (BitVec.ofNat 5 w.toNat))) ∧
    ∀ (dr sr1 : Fin 8) (imm5 : BitVec 5) (s : State), ∃ t, exec (.andImm dr sr1 imm5) s = .next t ∧
      (∀ k, k < 16 → (t.gpr dr).getLsbD k = ((s.gpr sr1).getLsbD k && imm5.getLsbD (min k 4))) ∧
      Classifies t.cond (t.gpr dr) ∧ SameButResult dr s t

/-- The rule of NOT (41_alu.md R94): the complement over all 16 bits (90_conflicts.md C5). The opcode is the table's
entry for NOT. That bits 5..0 of the word may hold anything is the spec's own decision D8 (30_encoding.md R70; log 15). -/
def Obligations.NotForm : Prop :=
  (∀ w : Word, opcode w = opcodeNot →
      decode w = .instr (.not (w.toNat / 512 % 8) (w.toNat / 64 % 8))) ∧
    ∀ (dr sr1 : Fin 8) (s : State), ∃ t, exec (.not dr sr1) s = .next t ∧
      (t.gpr dr).toNat = 65535 - (s.gpr sr1).toNat ∧
      Classifies t.cond (t.gpr dr) ∧ SameButResult dr s t

/-- 42_branch.md R100: taken exactly where a flag the mask names is the one set; the target is modulo 2^16; nothing
but `pc` changes. `s.pc` is the address of the BR plus one. The opcode is the table's entry for BR. That the target is
modulo 2^16 is the spec's own decision D4, the one-hot flags its decision D2. -/
def Obligations.BranchForm : Prop :=
  (∀ w : Word, opcode w = opcodeBr →
      decode w = .instr (.br (BitVec.ofNat 3 (w.toNat / 512)) (BitVec.ofNat 9 w.toNat))) ∧
    ∀ (mask : BitVec 3) (off9 : BitVec 9) (s : State), ∃ t, exec (.br mask off9) s = .next t ∧
      (mask &&& condBits s.cond ≠ 0#3 → (t.pc.toNat : Int) = (s.pc.toNat + off9.toInt) % 65536) ∧
      (mask &&& condBits s.cond = 0#3 → t.pc = s.pc) ∧ SameButPc s t

/-- The rule of LDI (43_load_indirect.md R110): the word the pointer points to. That the pointer's address is taken
modulo 2^16 is the spec's own decision D4. `s.pc` is the address of the LDI plus one. -/
def Obligations.LoadIndirectForm : Prop :=
  (∀ w : Word, opcode w = opcodeLdi →
      decode w = .instr (.ldi (w.toNat / 512 % 8) (BitVec.ofNat 9 w.toNat))) ∧
    ∀ (dr : Fin 8) (off9 : BitVec 9) (s : State) (ea : Word),
      (ea.toNat : Int) = (s.pc.toNat + off9.toInt) % 65536 →
      ∃ t, exec (.ldi dr off9) s = .next t ∧
        t.gpr dr = s.mem.readWord (s.mem.readWord ea) ∧
        Classifies t.cond (t.gpr dr) ∧ SameButResult dr s t

/-! ### Encoding -/

/-- Decoding an encoded well-formed instruction gives it back, with every operand (30_encoding.md R61 to R73). -/
def Obligations.DecodeEncodeAgree : Prop := ∀ i : Instr, i.WellFormed → decode (encode i) = .instr i

/-- Encoding what a word decodes to gives the word back in every bit its format names (30_encoding.md R61 to R73). -/
def Obligations.EncodeDecodeKeepsNamedBits : Prop :=
  ∀ (w : Word) (i : Instr), decode w = .instr i → encode i &&& namedBits i = w &&& namedBits i

/-- What the decoder answers is well formed: every decoded register index is in 0..7 (10_state.md R21). -/
def Obligations.DecodedIsWellFormed : Prop := ∀ (w : Word) (i : Instr), decode w = .instr i → i.WellFormed

/-- Each format of 30_encoding.md R63, R64, R66, R68, R69 is exactly the words its match and mask select. The opcode
values of AND, NOT, BR and LDI in them are the spec's own decision D1. -/
def Obligations.FormatsAreExact : Prop :=
  ∀ w : Word,
    ((∃ d a b, decode w = .instr (.addReg d a b)) ↔ w &&& 0xF020#16 = 0x1000#16) ∧
    ((∃ d a v, decode w = .instr (.addImm d a v)) ↔ w &&& 0xF020#16 = 0x1020#16) ∧
    ((∃ d a b, decode w = .instr (.andReg d a b)) ↔ w &&& 0xF020#16 = 0x5000#16) ∧
    ((∃ d a v, decode w = .instr (.andImm d a v)) ↔ w &&& 0xF020#16 = 0x5020#16) ∧
    ((∃ d a, decode w = .instr (.not d a)) ↔ w &&& 0xF000#16 = 0x9000#16) ∧
    ((∃ m v, decode w = .instr (.br m v)) ↔ w &&& 0xF000#16 = 0x0000#16) ∧
    ((∃ d v, decode w = .instr (.ldi d v)) ↔ w &&& 0xF000#16 = 0xA000#16)

/-- Words that differ only in bits their format does not name decode alike (30_encoding.md R70; the spec's own decision D8). -/
def Obligations.UnnamedBitsAreIgnored : Prop :=
  ∀ w u : Word,
    ((w &&& 0xF020#16 = 0x1000#16 ∨ w &&& 0xF020#16 = 0x5000#16) → w &&& 0xFFE7#16 = u &&& 0xFFE7#16 →
      decode w = decode u) ∧
    (w &&& 0xF000#16 = 0x9000#16 → w &&& 0xFFC0#16 = u &&& 0xFFC0#16 → decode w = decode u)

/-- Invalid words (30_encoding.md R67): a word is invalid exactly by its opcode, one of the eleven values that the
spec's own decision D1 leaves unassigned (log 5), and fetching one in a RUNNING core raises
InvalidOpcode with the word and its address; `pc` stays incremented and nothing else changes (60_exceptions.md R123).
That an error is the state FAULTED with a record is 60_exceptions.md R126 (the spec's own decisions D10 and D11; log 16). -/
def Obligations.InvalidOpcodesFault : Prop :=
  (∀ (w : Word) (op : BitVec 4),
      decode w = .invalid op ↔ op.toNat = w.toNat / 4096 ∧ op ∈ invalidOpcodes) ∧
    ∀ (s : State) (op : BitVec 4), s.runState = .running → op.toNat = (fetched s).toNat / 4096 →
      op ∈ invalidOpcodes →
      step s = .next { s with
        pc := s.pc + 1#16, runState := .faulted, fault := some (.invalidOpcode op (fetched s) s.pc) }

/-- One word of every form, written out from the formats of 30_encoding.md, and the instruction it is, and one invalid
word (R67). The opcode values of AND, NOT, BR and LDI in these words are the spec's own decision D1 (PRESUMED, log 5). -/
def Obligations.SampleWordsDecode : Prop :=
  decode 0b0001010000000001#16 = .instr (.addReg 2 0 1) ∧
    decode 0b0001010000111110#16 = .instr (.addImm 2 0 0b11110#5) ∧
    decode 0b0101101011000100#16 = .instr (.andReg 5 3 4) ∧
    decode 0b0101000000100000#16 = .instr (.andImm 0 0 0b00000#5) ∧
    decode 0b1001001010111111#16 = .instr (.not 1 2) ∧
    decode 0b0000100000000001#16 = .instr (.br 0b100#3 0b000000001#9) ∧
    decode 0b1010001000000001#16 = .instr (.ldi 1 0b000000001#9) ∧
    decode 0b1111000000100101#16 = .invalid 0xF#4

/-- 30_encoding.md R65: a value with its top bit clear is unchanged; with it set, every higher bit is set, and the
signed value is the value less 2^N. N is 5 and 9. -/
def Obligations.SignExtension : Prop :=
  (∀ v : BitVec 5,
      (v.toNat < 16 → (sext 5 v).toNat = v.toNat) ∧
      (16 ≤ v.toNat → (sext 5 v).toNat = v.toNat ||| 0xFFE0 ∧ (sext 5 v).toInt = (v.toNat : Int) - 32)) ∧
    ∀ v : BitVec 9,
      (v.toNat < 256 → (sext 9 v).toNat = v.toNat) ∧
      (256 ≤ v.toNat → (sext 9 v).toNat = v.toNat ||| 0xFE00 ∧ (sext 9 v).toInt = (v.toNat : Int) - 512)

/-! ### The condition register -/

/-- 10_state.md R27: `setcc` on an index of R0..R7 sets the flag of that register and nothing else; any other index is
InternalFlagIndex. -/
def Obligations.SetccRule : Prop :=
  ∀ s : State,
    (∀ (i : Fin 8) (f : Cond),
      (s.gpr i = 0x0000#16 → f = .z) → (s.gpr i ≠ 0x0000#16 → (s.gpr i).getLsbD 15 = true → f = .n) →
      (s.gpr i ≠ 0x0000#16 → (s.gpr i).getLsbD 15 = false → f = .p) →
      setcc i s = .ok { s with cond := f }) ∧
    ∀ i : Nat, 8 ≤ i → setcc i s = .error (.internalFlagIndex i)

/-- The one-hot values of `cond` (10_state.md R25; the spec's own decision D2), and that the branch test selects exactly
the flags the mask names (42_branch.md R101, which the spec derives). -/
def Obligations.BranchMaskTable : Prop :=
  condBits .n = 0b100#3 ∧ condBits .z = 0b010#3 ∧ condBits .p = 0b001#3 ∧
    ∀ (mask : BitVec 3) (c : Cond), branchTaken mask c = true ↔
      (mask.getLsbD 2 = true ∧ c = .n) ∨ (mask.getLsbD 1 = true ∧ c = .z) ∨ (mask.getLsbD 0 = true ∧ c = .p)

/-- 10_state.md R28, of every step: an ADD, AND, NOT or LDI leaves `cond` the class of the register it names as DR;
every other word, a BR or a faulting one, leaves `cond` alone. -/
def Obligations.CondIsWrittenOnlyWithARegister : Prop :=
  ∀ s t : State, s.runState = .running → step s = .next t →
    (opcode (fetched s) ∈ [opcodeAdd, opcodeAnd, opcodeNot, opcodeLdi] →
      ∀ d : Fin 8, d.val = (fetched s).toNat / 512 % 8 → Classifies t.cond (t.gpr d)) ∧
    (opcode (fetched s) ∉ [opcodeAdd, opcodeAnd, opcodeNot, opcodeLdi] → t.cond = s.cond)

/-! ### The step -/

/-- A step (40_cycle.md R80, R81, R82): none unless RUNNING; the word at `pc` is decoded and executed with `pc` already incremented
modulo 2^16; INVALID raises InvalidOpcode, whose form as a state FAULTED with a record is 60_exceptions.md
R126 (the spec's own decisions D10 and D11, log 16; that a FAULTED core does not step is D10 too). -/
def Obligations.StepRunsTheDecodedInstruction : Prop :=
  ∀ s : State,
    (s.runState ≠ .running → step s = .next s) ∧
    (s.runState = .running →
      (∀ i, decode (fetched s) = .instr i → step s = exec i { s with pc := s.pc + 1#16 }) ∧
      ∀ op, decode (fetched s) = .invalid op → step s = .next { s with
        pc := s.pc + 1#16, runState := .faulted, fault := some (.invalidOpcode op (fetched s) s.pc) })

/-- No step stops by a fault or a refusal of the interface: every error the spec names is a state of the core
(60_exceptions.md R125, R126; the spec's own decision D10), and so is what a stopped core steps to (40_cycle.md R80).
That both are next states of the interface is the model's choice (DESIGN CHOICE, log 16). -/
def Obligations.EveryStepAnswersAState : Prop := ∀ s : State, ∃ t, step s = .next t

/-- Faults are precise (40_cycle.md R85, 60_exceptions.md R125, R127): a step that takes a RUNNING core out of RUNNING
raised InvalidOpcode on the word it fetched (R123); `pc` is that word's address plus one and registers, `cond` and memory
are as the previous step left them. The state FAULTED and its record are R126, the spec's own decisions D10 and D11
(log 16). -/
def Obligations.FaultsArePrecise : Prop :=
  ∀ s t : State, s.runState = .running → step s = .next t → t.runState ≠ .running →
    t.runState = .faulted ∧ t.regs = s.regs ∧ t.cond = s.cond ∧ t.mem = s.mem ∧ t.halted = s.halted ∧
    t.pc = s.pc + 1#16 ∧
    ∃ op ∈ invalidOpcodes, op.toNat = (fetched s).toNat / 4096 ∧
      t.fault = some (.invalidOpcode op (fetched s) s.pc)

/-- HALTED and FAULTED are terminal, for any number of steps, record and all (10_state.md R30, 40_cycle.md R80,
60_exceptions.md R128; the spec's own decisions D10 and D12; a next state by log 16). -/
def Obligations.TerminalStatesStay : Prop :=
  ∀ (k : Nat) (s : State), s.runState ≠ .running → Host.Core.run core k s = .next s

/-- The invariant of the core is kept by every step: `halted`, `state` and `fault` in agreement (10_state.md R30), and
memory in its canonical form, which is the model's choice (DESIGN CHOICE, log 4). -/
def Obligations.StepKeepsTheInvariant : Prop := ∀ s t : State, s.Inv → step s = .next t → t.Inv

/-- The invariant holds after reset (10_state.md R30, R34), for every value of the OPEN parameters. Its canonical form of
memory is the model's choice (DESIGN CHOICE, log 4). -/
def Obligations.ResetMeetsTheInvariant : Prop := State.reset.Inv ∧ ∀ p : ResetParams, (State.resetWith p).Inv

/-- What reaches memory (20_memory.md R44): no step writes memory, and what a step does depends on memory only through the word at `pc` and,
for an LDI, the pointer and the word it points to: with any other memory `m` that agrees there, the step does the same.
The pointer's address modulo 2^16 is the spec's own decision D4. -/
def Obligations.MemoryReachedAsListed : Prop :=
  ∀ s t : State, step s = .next t →
    t.mem = s.mem ∧
    ∀ (m : Memory), m.readWord s.pc = fetched s →
      (∀ ea : Word, opcode (fetched s) = opcodeLdi →
        (ea.toNat : Int) = (s.pc.toNat + 1 + (BitVec.ofNat 9 (fetched s).toNat).toInt) % 65536 →
        m.readWord ea = s.mem.readWord ea ∧
        m.readWord (s.mem.readWord ea) = s.mem.readWord (s.mem.readWord ea)) →
      step { s with mem := m } = .next { t with mem := m }

/-- Control transfer (42_branch.md R102): after a step of a RUNNING core `pc` is the next address or, of a BR word only,
the PC-relative target. That both are modulo 2^16 is the spec's own decisions D3 and D4 (log 14). -/
def Obligations.ControlTransferOnlyByBranch : Prop :=
  ∀ s t : State, s.runState = .running → step s = .next t →
    t.pc = s.pc + 1#16 ∨
      (opcode (fetched s) = opcodeBr ∧
        (t.pc.toNat : Int) = (s.pc.toNat + 1 + (BitVec.ofNat 9 (fetched s).toNat).toInt) % 65536)

/-- A step changes at most one general register, the one its word names as DR (10_state.md R21, R28). -/
def Obligations.AtMostOneRegisterChanges : Prop :=
  ∀ (s t : State) (r : Fin 8), step s = .next t → t.gpr r ≠ s.gpr r →
    r.val = (fetched s).toNat / 512 % 8 ∧ opcode (fetched s) ∈ [opcodeAdd, opcodeAnd, opcodeNot, opcodeLdi]

/-- The addressing mode of LDI from the fetch on, `M[M[pc_after_fetch + sext_9(PCoffset9)]]` (43_load_indirect.md R111;
modulo 2^16 by D4). -/
def Obligations.LoadIndirectStep : Prop :=
  ∀ (s : State) (ea : Word) (d : Fin 8), s.runState = .running → opcode (fetched s) = opcodeLdi →
    (ea.toNat : Int) = (s.pc.toNat + 1 + (BitVec.ofNat 9 (fetched s).toNat).toInt) % 65536 →
    d.val = (fetched s).toNat / 512 % 8 →
    ∃ t, step s = .next t ∧ t.gpr d = s.mem.readWord (s.mem.readWord ea) ∧ t.pc = s.pc + 1#16 ∧
      (∀ r, r ≠ d → t.gpr r = s.gpr r) ∧ t.mem = s.mem

/-- The branch from the fetch on: untaken it leaves `pc` at its address plus one, taken at the target, and offset -1
taken is the BR itself (42_branch.md R100). -/
def Obligations.BranchStep : Prop :=
  ∀ (s : State) (mask : BitVec 3) (off9 : BitVec 9), s.runState = .running → fetched s = encode (.br mask off9) →
    ∃ t, step s = .next t ∧
      (mask &&& condBits s.cond = 0#3 → t.pc = s.pc + 1#16) ∧
      (mask &&& condBits s.cond ≠ 0#3 → (t.pc.toNat : Int) = (s.pc.toNat + 1 + off9.toInt) % 65536) ∧
      (mask &&& condBits s.cond ≠ 0#3 → off9 = 0b111111111#9 → t = s)

/-- An operand index outside 0..7 raises InvalidRegister and changes nothing else; DR is looked at first, then SR1,
then SR2 (10_state.md R21, 60_exceptions.md R122, R129; the order among the three is DEDUCED, log 6). That the error is
a next state, FAULTED with its record, is R126 (the spec's own decisions D10 and D11; log 16). No decoded instruction has
such an index. -/
def Obligations.InvalidRegisterOperands : Prop :=
  ∀ (s : State) (dr sr1 sr2 k : Nat) (imm5 : BitVec 5) (off9 : BitVec 9), s.runState = .running → 8 ≤ k →
    let raised : Host.Outcome State Fault Refusal :=
      .next { s with runState := .faulted, fault := some (.invalidRegister k) }
    (k = dr → exec (.ldi dr off9) s = raised) ∧
    (k = dr ∨ dr < 8 ∧ k = sr1 →
      exec (.addImm dr sr1 imm5) s = raised ∧ exec (.andImm dr sr1 imm5) s = raised ∧
      exec (.not dr sr1) s = raised) ∧
    (k = dr ∨ dr < 8 ∧ k = sr1 ∨ dr < 8 ∧ sr1 < 8 ∧ k = sr2 →
      exec (.addReg dr sr1 sr2) s = raised ∧ exec (.andReg dr sr1 sr2) s = raised)

/-- A word placed for the next step is what that step runs (20_memory.md R55, 40_cycle.md R81). Placing it and the
canonical form of memory are the model's (logs 4 and 12). -/
def Obligations.PlacedWordIsRun : Prop :=
  ∀ (s : State) (nbits w : Nat) (i : Instr), s.mem.wf → decodeTableWord nbits w = some i →
    step (s.withFetchWord nbits w) = exec i ((s.withFetchWord nbits w).setPc (nextPc s.pc))

/-! ### Arithmetic of the ALU -/

/-- A corner case of 41_alu.md R94: NOT followed by `ADD DR, DR, #1` is the two's-complement negation. -/
def Obligations.NotThenAddOneNegates : Prop :=
  ∀ (dr sr1 : Fin 8) (s : State), ∃ t u, exec (.not dr sr1) s = .next t ∧ exec (.addImm dr dr 1#5) t = .next u ∧
    (u.gpr dr).toNat = (65536 - (s.gpr sr1).toNat) % 65536 ∧ SameButResult dr s u

/-- A corner case of 41_alu.md R93: a non-negative immediate leaves a result in 0..15 and never N; immediate 0 clears the register
whatever it held, the initialising idiom of 70_reset_and_hazards.md R154. -/
def Obligations.AndImmediateClears : Prop :=
  ∀ (dr sr1 : Fin 8) (imm5 : BitVec 5) (s : State), imm5.toNat < 16 → ∃ t, exec (.andImm dr sr1 imm5) s = .next t ∧
    (t.gpr dr).toNat ≤ 15 ∧ t.cond ≠ .n ∧ (imm5 = 0#5 → t.gpr dr = 0x0000#16 ∧ t.cond = .z)

/-! ### Memory -/

/-- Two memories in canonical form that agree on every word are the same list (20_memory.md R40; the form is the
model's, log 4). -/
def Obligations.CanonicalMemoriesAreEqual : Prop :=
  ∀ m n : Memory, m.wf → n.wf → (∀ a : Word, m.readWord a = n.readWord a) → m = n

/-- Bounds-checked access (20_memory.md R41, R42, 60_exceptions.md R121): an address in 0..65535 is read or written, and
a write changes that word alone; any other address is OutOfBounds with that address, and nothing is read or written. The
canonical form, which a write keeps, is the model's choice (DESIGN CHOICE, log 4). -/
def Obligations.BoundsCheckedAccess : Prop :=
  ∀ (m : Memory) (addr : Int) (v : Word), m.wf →
    (0 ≤ addr → addr < 65536 →
      memRead m addr = .ok (m.readWord (BitVec.ofInt 16 addr)) ∧
      ∃ n, memWrite m addr v = .ok n ∧ n.wf ∧
        ∀ b : Word, n.readWord b = if (b.toNat : Int) = addr then v else m.readWord b) ∧
    (addr < 0 ∨ 65536 ≤ addr →
      memRead m addr = .error (.outOfBounds addr) ∧ memWrite m addr v = .error (.outOfBounds addr))

/-! ### Reset and the host's transactions -/

/-- What reset leaves, for every value of the OPEN parameters (10_state.md R34; the empty fault record is the spec's own
decision D10, the parameters its D5, D6 and D7). -/
def Obligations.ResetLeaves : Prop :=
  ∀ p : ResetParams,
    (State.resetWith p).pc = 0x3000#16 ∧ (State.resetWith p).halted = false ∧
    (State.resetWith p).runState = .running ∧ (State.resetWith p).fault = none ∧
    (State.resetWith p).cond = p.condReset ∧ (∀ i, (State.resetWith p).gpr i = p.gprReset i) ∧
    ∀ a, (State.resetWith p).mem.readWord a = p.memInit a

/-- Reset is accepted in every state, HALTED and FAULTED too, and in every phase, and leaves exactly the reset state
(70_reset_and_hazards.md R150; the spec's own decision D12). -/
def Obligations.ResetIsAcceptedInEveryState : Prop :=
  ∀ (p : ResetParams) (q : Session), transact p .reset q = .next (⟨State.resetWith p, .fresh⟩, .done)

/-- The host interface's reset state is the reset action at the values logs 1, 2 and 3 name (the model's DESIGN CHOICE,
not a rule of the spec). -/
def Obligations.ResetIsOneInstance : Prop := State.reset = State.resetWith ResetParams.named

/-- The loader (70_reset_and_hazards.md R152): an image of at most 0xD000 words is written from 0x3000 on, in order, and nothing else
changes; a longer one writes the words that fit and raises OutOfBounds(0x10000) (the spec's own decision D16). An error
is the state FAULTED with its record (60_exceptions.md R126; D10, D11), which a core that is not RUNNING does not enter
anew (R128; DEDUCED, log 7). The reply failed is the model's choice (DESIGN CHOICE, log 20), as is the canonical form of
memory (log 4). -/
def Obligations.LoadImageRule : Prop :=
  ∀ (p : ResetParams) (q : Session) (ws : List Word), q.phase = .fresh → q.core.mem.wf →
    ∃ m : Memory,
      (∀ (i : Nat) (h : i < ws.length), i < 0xD000 → m.readWord (BitVec.ofNat 16 (0x3000 + i)) = ws[i]) ∧
      (∀ a : Word, a.toNat < 0x3000 ∨ 0x3000 + ws.length ≤ a.toNat → m.readWord a = q.core.mem.readWord a) ∧
      (ws.length ≤ 0xD000 →
        transact p (.loadImage (ws.map addrOf)) q = .next ({ q with core := { q.core with mem := m } }, .done)) ∧
      (0xD000 < ws.length → q.core.runState = .running →
        transact p (.loadImage (ws.map addrOf)) q = .next ({ q with core := { q.core with
          mem := m, runState := .faulted, fault := some (.outOfBounds 0x10000) } }, .failed)) ∧
      (0xD000 < ws.length → q.core.runState ≠ .running →
        transact p (.loadImage (ws.map addrOf)) q = .next ({ q with core := { q.core with mem := m } }, .failed))

/-- No load after the first step, and an image value outside 0..0xFFFF is refused (70_reset_and_hazards.md R153; the
spec's own decision D18). That a load is refused from the first Step or Run request on, and after a Terminate, is the
model's choice (logs 8 and 9); so is that an image with a value that is no Word is refused whole, one too long for memory
too (DESIGN CHOICE, log 10). -/
def Obligations.LoadRefusals : Prop :=
  ∀ (p : ResetParams) (q : Session) (ws : List Int),
    (q.phase ≠ .fresh → transact p (.loadImage ws) q = .refused .hostLoadAfterFirstStep) ∧
    (q.phase = .fresh → ∀ v ∈ ws, v < 0 ∨ 65536 ≤ v →
      ∃ u ∈ ws, (u < 0 ∨ 65536 ≤ u) ∧ transact p (.loadImage ws) q = .refused (.hostValueNotWord u))

/-- Step is one step and Run the step repeated while RUNNING (70_reset_and_hazards.md R160), and after either no image is
loaded (R153); after a Terminate neither changes anything (R158). That the request itself ends the time for loading, and
not a step made, is the model's choice (log 9); so are the budget of a Run (log 11), the reply done whatever the steps
did (log 20), and that a request after a Terminate is answered and not refused (log 8). -/
def Obligations.SteppingEndsLoading : Prop :=
  ∀ (p : ResetParams) (q : Session),
    (∃ q', transact p .step q = .next (q', .done) ∧
      (q.phase ≠ .terminated → step q.core = .next q'.core) ∧ (q.phase = .terminated → q' = q) ∧
      ∀ ws, transact p (.loadImage ws) q' = .refused .hostLoadAfterFirstStep) ∧
    ∀ k : Nat, ∃ q', transact p (.run k) q = .next (q', .done) ∧
      (q.phase ≠ .terminated → runFor k q.core = .next q'.core) ∧ (q.phase = .terminated → q' = q) ∧
      ∀ ws, transact p (.loadImage ws) q' = .refused .hostLoadAfterFirstStep

/-- Reading a slot (10_state.md R31; the numbers 8 and 9 are the spec's own decision D13). 0..7 are the general registers, 8 is `pc`, 9 is `cond` as its one-hot number; any
other index is InvalidRegister. Reading changes nothing (70_reset_and_hazards.md R156). An error is the state FAULTED with
its record (60_exceptions.md R126; D10, D11), which a core that is not RUNNING does not enter anew (R128; DEDUCED, log 7).
The reply failed is the model's choice (DESIGN CHOICE, log 20). -/
def Obligations.ReadRegisterSlots : Prop :=
  ∀ (p : ResetParams) (q : Session),
    (∀ i : Fin 8, transact p (.readReg i.val) q = .next (q, .value (q.core.gpr i))) ∧
    transact p (.readReg 8) q = .next (q, .value q.core.pc) ∧
    transact p (.readReg 9) q = .next (q, .value ((condBits q.core.cond).setWidth 16)) ∧
    ∀ i : Int, i < 0 ∨ 10 ≤ i →
      (q.core.runState = .running → transact p (.readReg i) q = .next ({ q with core := { q.core with
        runState := .faulted, fault := some (.invalidRegister i) } }, .failed)) ∧
      (q.core.runState ≠ .running → transact p (.readReg i) q = .next (q, .failed))

/-- ReadStatus (70_reset_and_hazards.md R160, R156): it returns `state` and the fault record and changes nothing, in every
state and phase; and the numbers the host reads for a record (60_exceptions.md R120; the spec's own decision D9). That
both are returned in one reply is the model's form (log 13). -/
def Obligations.ReadStatusAnswers : Prop :=
  (∀ (p : ResetParams) (q : Session),
    transact p .readStatus q = .next (q, .status q.core.runState q.core.fault)) ∧
    faultCode none = 0 ∧ (∀ a : Int, faultCode (some (.outOfBounds a)) = 1) ∧
    (∀ i : Int, faultCode (some (.invalidRegister i)) = 2) ∧
    (∀ (op : BitVec 4) (ins a : Word), faultCode (some (.invalidOpcode op ins a)) = 3) ∧
    ∀ i : Int, faultCode (some (.internalFlagIndex i)) = 4

/-- WriteReg (70_reset_and_hazards.md R160): the slot is written; `cond` takes exactly one flag or the request is
refused; an index outside 0..9 is InvalidRegister; a value that is no Word is refused, whatever the index (the spec's own
decisions D13, D17, D18; that the value is looked at before the index is the model's choice, log 10). An error is the
state FAULTED with its record (60_exceptions.md R126; D10, D11), which a core that is not RUNNING does not enter anew
(R128; DEDUCED, log 7). The replies done and failed are the model's choice (DESIGN CHOICE, logs 13 and 20). -/
def Obligations.WriteRegisterSlots : Prop :=
  ∀ (p : ResetParams) (q : Session) (v : Word),
    (∀ i : Fin 8, transact p (.writeReg i.val v.toNat) q = .next ({ q with core := q.core.setGpr i v }, .done)) ∧
    transact p (.writeReg 8 v.toNat) q = .next ({ q with core := { q.core with pc := v } }, .done) ∧
    (∀ c : Cond, v = (condBits c).setWidth 16 →
      transact p (.writeReg 9 v.toNat) q = .next ({ q with core := { q.core with cond := c } }, .done)) ∧
    ((∀ c : Cond, v ≠ (condBits c).setWidth 16) →
      transact p (.writeReg 9 v.toNat) q = .refused (.hostCondNotOneFlag v)) ∧
    (∀ i : Int, i < 0 ∨ 10 ≤ i →
      (q.core.runState = .running → transact p (.writeReg i v.toNat) q = .next ({ q with core := { q.core with
        runState := .faulted, fault := some (.invalidRegister i) } }, .failed)) ∧
      (q.core.runState ≠ .running → transact p (.writeReg i v.toNat) q = .next (q, .failed))) ∧
    ∀ i u : Int, u < 0 ∨ 65536 ≤ u → transact p (.writeReg i u) q = .refused (.hostValueNotWord u)

/-- ReadMem and WriteMem (70_reset_and_hazards.md R160; the spec's own decision D17): the word at an address in bounds, or OutOfBounds with the
address and nothing read or written. An error is the state FAULTED with its record (60_exceptions.md R126; D10, D11),
which a core that is not RUNNING does not enter anew (R128; DEDUCED, log 7). The replies done and failed are the model's
choice (DESIGN CHOICE, logs 13 and 20). -/
def Obligations.HostMemoryAccess : Prop :=
  ∀ (p : ResetParams) (q : Session) (v : Word),
    (∀ a : Word, transact p (.readMem a.toNat) q = .next (q, .value (q.core.mem.readWord a)) ∧
      transact p (.writeMem a.toNat v.toNat) q =
        .next ({ q with core := { q.core with mem := q.core.mem.writeWord a v } }, .done)) ∧
    ∀ a : Int, a < 0 ∨ 65536 ≤ a →
      let failed : HostOutcome := .next ({ q with core := { q.core with
        runState := .faulted, fault := some (.outOfBounds a) } }, .failed)
      (q.core.runState = .running →
        transact p (.readMem a) q = failed ∧ transact p (.writeMem a v.toNat) q = failed) ∧
      (q.core.runState ≠ .running →
        transact p (.readMem a) q = .next (q, .failed) ∧ transact p (.writeMem a v.toNat) q = .next (q, .failed))

/-- A Terminate changes nothing of the core, and after it no Step or Run does (70_reset_and_hazards.md R158; the spec's
own decision D21; that such a Step is a no-op and not refused is DEDUCED, log 8). -/
def Obligations.TerminateFreezes : Prop :=
  ∀ (p : ResetParams) (q : Session) (r : HostRequest) (k : Nat), r = .step ∨ r = .run k →
    ∃ q', transact p .terminate q = .next (q', .done) ∧ q'.core = q.core ∧ transact p r q' = .next (q', .done)

/-- While the core stays FAULTED no step and no transaction but Reset touches the record (60_exceptions.md R128; the
spec's own decision D12; that a failing host access does not is DEDUCED, log 7). -/
def Obligations.FaultRecordIsKept : Prop :=
  (∀ s t : State, s.runState = .faulted → step s = .next t → t = s) ∧
    ∀ (p : ResetParams) (r : HostRequest) (q q' : Session) (a : HostReply), q.core.runState = .faulted →
      r ≠ .reset → transact p r q = .next (q', a) →
      q'.core.runState = .faulted ∧ q'.core.fault = q.core.fault

/-- Nothing sets the halted flag, neither a step nor a transaction (10_state.md R29; the spec's own decision D23). -/
def Obligations.NothingSetsHalted : Prop :=
  (∀ s t : State, s.halted = false → step s = .next t → t.halted = false) ∧
    ∀ (p : ResetParams) (r : HostRequest) (q q' : Session) (a : HostReply), q.core.halted = false →
      transact p r q = .next (q', a) → q'.core.halted = false

/-- Every transaction keeps the invariant of the core, whatever the host asks (70_reset_and_hazards.md R160): `halted`,
`state` and `fault` in agreement (10_state.md R30), and memory in its canonical form, which is the model's choice (DESIGN
CHOICE, log 4). -/
def Obligations.TransactionsKeepTheInvariant : Prop :=
  ∀ (p : ResetParams) (r : HostRequest) (q q' : Session) (a : HostReply), q.core.Inv →
    transact p r q = .next (q', a) → q'.core.Inv

/-! ### Runs -/

/-- A Run, which steps only while RUNNING, is the plain repetition of the step (40_cycle.md R80, R83), and the Run
transaction leaves the core that repetition answers (70_reset_and_hazards.md R160), unless a Terminate came before (R158).
That HALTED and FAULTED do not step is the spec's own decision D10. The budget of a Run is the model's choice (DESIGN
CHOICE, log 11), as are the phase it leaves (log 9) and its reply (log 20). -/
def Obligations.RunIsRepeatedStep : Prop :=
  (∀ (k : Nat) (s : State), runFor k s = Host.Core.run core k s) ∧
    ∀ (p : ResetParams) (q : Session) (k : Nat), q.phase ≠ .terminated →
      ∃ t : State, Host.Core.run core k q.core = .next t ∧
        transact p (.run k) q = .next (⟨t, .started⟩, .done)

/-- The end of a run (40_cycle.md R80, R83, 70_reset_and_hazards.md R155), over the plain repetition of the step, which
does not look whether the core still runs: once some number of steps leads out of RUNNING, every larger number leads to
that same state, and no number leads out of RUNNING to another. That HALTED and FAULTED do not step is the spec's own
decision D10. -/
def Obligations.RunEndIsUnique : Prop :=
  ∀ (k : Nat) (s t : State), Host.Core.run core k s = .next t → t.runState ≠ .running →
    (∀ n, k ≤ n → Host.Core.run core n s = .next t) ∧
    ∀ (j : Nat) (u : State), Host.Core.run core j s = .next u → u.runState ≠ .running → u = t

/-- A run that starts RUNNING and ends has fetched an invalid word at some address `a`: it ends FAULTED, the record
names the word and `a`, `pc` is `a` plus one, and memory is as it started (40_cycle.md R83, 70_reset_and_hazards.md
R155). The state FAULTED and its record are 60_exceptions.md R126, the spec's own decisions D10 and D11 (log 16); which
opcodes are invalid rests on its decision D1 (log 5); the end of a run as a relation is the model's (log 11). -/
def Obligations.RunEndsOnlyAtAnInvalidWord : Prop :=
  ∀ s t : State, s.runState = .running → RunEnds s t →
    ∃ (a : Word) (op : BitVec 4), op ∈ invalidOpcodes ∧ op.toNat = (s.mem.readWord a).toNat / 4096 ∧
      t.runState = .faulted ∧ t.fault = some (.invalidOpcode op (s.mem.readWord a) a) ∧ t.pc = a + 1#16 ∧
      t.mem = s.mem ∧ t.halted = s.halted
end

