-- ==== Sys2Proof/Laws/Decode.lean ====
section
/-! SUPPORT. The decoder inverted: what each of its answers says about the word. -/

namespace Sys2Proof

/-- Everything the decoder can answer, with what it read (30_encoding.md R73). -/
theorem decode_cases (w : Word) :
    (opcode w = opcodeAdd ∧ isImmediateMode w = true ∧
        decode w = .instr (.addImm (destReg w).toNat (srcReg1 w).toNat (immediate5 w))) ∨
      (opcode w = opcodeAdd ∧ isImmediateMode w = false ∧
        decode w = .instr (.addReg (destReg w).toNat (srcReg1 w).toNat (srcReg2 w).toNat)) ∨
      (opcode w = opcodeAnd ∧ isImmediateMode w = true ∧
        decode w = .instr (.andImm (destReg w).toNat (srcReg1 w).toNat (immediate5 w))) ∨
      (opcode w = opcodeAnd ∧ isImmediateMode w = false ∧
        decode w = .instr (.andReg (destReg w).toNat (srcReg1 w).toNat (srcReg2 w).toNat)) ∨
      (opcode w = opcodeNot ∧ decode w = .instr (.not (destReg w).toNat (srcReg1 w).toNat)) ∨
      (opcode w = opcodeBr ∧ decode w = .instr (.br (branchCondMask w) (pcOffset9 w))) ∨
      (opcode w = opcodeLdi ∧ decode w = .instr (.ldi (destReg w).toNat (pcOffset9 w))) ∨
      (opcode w ≠ opcodeAdd ∧ opcode w ≠ opcodeAnd ∧ opcode w ≠ opcodeNot ∧ opcode w ≠ opcodeBr ∧
        opcode w ≠ opcodeLdi ∧ decode w = .invalid (opcode w)) := by
  unfold decode
  by_cases h1 : opcode w = opcodeAdd
  · cases hm : isImmediateMode w <;> simp [h1]
  by_cases h2 : opcode w = opcodeAnd
  · cases hm : isImmediateMode w <;> simp [h2, show ¬ opcodeAnd = opcodeAdd by decide]
  by_cases h3 : opcode w = opcodeNot
  · simp [h3, show ¬ opcodeNot = opcodeAdd by decide, show ¬ opcodeNot = opcodeAnd by decide]
  by_cases h4 : opcode w = opcodeBr
  · simp [h4, show ¬ opcodeBr = opcodeAdd by decide, show ¬ opcodeBr = opcodeAnd by decide,
      show ¬ opcodeBr = opcodeNot by decide]
  by_cases h5 : opcode w = opcodeLdi
  · simp [h5, show ¬ opcodeLdi = opcodeAdd by decide, show ¬ opcodeLdi = opcodeAnd by decide,
      show ¬ opcodeLdi = opcodeNot by decide, show ¬ opcodeLdi = opcodeBr by decide]
  simp [h1, h2, h3, h4, h5]

end Sys2Proof
end

