-- ==== Sys2Proof/Laws/Fields.lean ====
section
/-! SUPPORT. Instruction words as numbers: what each field and each encoded word is in arithmetic, so that a claim about
bit fields is one about division and remainder. -/

namespace Sys2Proof

/-- Concatenation as a number. -/
theorem toNat_append_add {m n : Nat} (a : BitVec m) (b : BitVec n) :
    (a ++ b).toNat = a.toNat * 2 ^ n + b.toNat := by
  rw [BitVec.toNat_append, ← Nat.shiftLeft_add_eq_or_of_lt b.isLt, Nat.shiftLeft_eq]

/-! ### The fields of R61 -/

theorem opcode_toNat (w : Word) : (opcode w).toNat = w.toNat / 4096 := by
  simp only [opcode, BitVec.extractLsb'_toNat, Nat.shiftRight_eq_div_pow]
  omega
theorem destReg_toNat (w : Word) : (destReg w).toNat = w.toNat / 512 % 8 := by
  simp only [destReg, BitVec.extractLsb'_toNat, Nat.shiftRight_eq_div_pow]
theorem srcReg1_toNat (w : Word) : (srcReg1 w).toNat = w.toNat / 64 % 8 := by
  simp only [srcReg1, BitVec.extractLsb'_toNat, Nat.shiftRight_eq_div_pow]
theorem srcReg2_toNat (w : Word) : (srcReg2 w).toNat = w.toNat % 8 := by
  simp only [srcReg2, BitVec.extractLsb'_toNat, Nat.shiftRight_eq_div_pow]
  omega
theorem immediate5_toNat (w : Word) : (immediate5 w).toNat = w.toNat % 32 := by
  simp only [immediate5, BitVec.extractLsb'_toNat, Nat.shiftRight_eq_div_pow]
  omega
theorem pcOffset9_toNat (w : Word) : (pcOffset9 w).toNat = w.toNat % 512 := by
  simp only [pcOffset9, BitVec.extractLsb'_toNat, Nat.shiftRight_eq_div_pow]
  omega
theorem branchCondMask_toNat (w : Word) : (branchCondMask w).toNat = w.toNat / 512 % 8 := destReg_toNat w
theorem isImmediateMode_iff (w : Word) : isImmediateMode w = true ↔ w.toNat / 32 % 2 = 1 := by
  simp [isImmediateMode, BitVec.getLsbD, Nat.testBit_eq_decide_div_mod_eq]

theorem regField_toNat (i : Nat) : (regField i).toNat = i % 8 := by simp [regField]

/-! ### The encoded words of R63 to R69 -/

theorem encode_addReg_toNat (dr sr1 sr2 : Nat) :
    (encode (.addReg dr sr1 sr2)).toNat = 1 * 4096 + dr % 8 * 512 + sr1 % 8 * 64 + sr2 % 8 := by
  show ((opcodeAdd ++ regField dr ++ regField sr1 ++ 0#1 ++ 0#2 ++ regField sr2).toNat) = _
  simp only [toNat_append_add, regField_toNat, opcodeAdd, BitVec.toNat_ofNat]
  omega
theorem encode_addImm_toNat (dr sr1 : Nat) (imm5 : BitVec 5) :
    (encode (.addImm dr sr1 imm5)).toNat = 1 * 4096 + dr % 8 * 512 + sr1 % 8 * 64 + 32 + imm5.toNat := by
  show ((opcodeAdd ++ regField dr ++ regField sr1 ++ 1#1 ++ imm5).toNat) = _
  simp only [toNat_append_add, regField_toNat, opcodeAdd, BitVec.toNat_ofNat]
  omega
theorem encode_andReg_toNat (dr sr1 sr2 : Nat) :
    (encode (.andReg dr sr1 sr2)).toNat = 5 * 4096 + dr % 8 * 512 + sr1 % 8 * 64 + sr2 % 8 := by
  show ((opcodeAnd ++ regField dr ++ regField sr1 ++ 0#1 ++ 0#2 ++ regField sr2).toNat) = _
  simp only [toNat_append_add, regField_toNat, opcodeAnd, BitVec.toNat_ofNat]
  omega
theorem encode_andImm_toNat (dr sr1 : Nat) (imm5 : BitVec 5) :
    (encode (.andImm dr sr1 imm5)).toNat = 5 * 4096 + dr % 8 * 512 + sr1 % 8 * 64 + 32 + imm5.toNat := by
  show ((opcodeAnd ++ regField dr ++ regField sr1 ++ 1#1 ++ imm5).toNat) = _
  simp only [toNat_append_add, regField_toNat, opcodeAnd, BitVec.toNat_ofNat]
  omega
theorem encode_not_toNat (dr sr1 : Nat) :
    (encode (.not dr sr1)).toNat = 9 * 4096 + dr % 8 * 512 + sr1 % 8 * 64 + 63 := by
  show ((opcodeNot ++ regField dr ++ regField sr1 ++ 0b111111#6).toNat) = _
  simp only [toNat_append_add, regField_toNat, opcodeNot, BitVec.toNat_ofNat]
  omega
theorem encode_br_toNat (mask : BitVec 3) (off9 : BitVec 9) :
    (encode (.br mask off9)).toNat = mask.toNat * 512 + off9.toNat := by
  show ((opcodeBr ++ mask ++ off9).toNat) = _
  simp only [toNat_append_add, opcodeBr, BitVec.toNat_ofNat]
  omega
theorem encode_ldi_toNat (dr : Nat) (off9 : BitVec 9) :
    (encode (.ldi dr off9)).toNat = 10 * 4096 + dr % 8 * 512 + off9.toNat := by
  show ((opcodeLdi ++ regField dr ++ off9).toNat) = _
  simp only [toNat_append_add, regField_toNat, opcodeLdi, BitVec.toNat_ofNat]
  omega

end Sys2Proof
end

