-- ==== Sys2Proof/Laws/Flags.lean ====
section
/-! SUPPORT. The flag of a value, in the words of its sign. -/

namespace Sys2Proof.Machine

/-- `flagOf` is the class of the value's sign (10_state.md R27). -/
theorem classifies_flagOf (v : Word) : Classifies (flagOf v) v := by
  have hi := BitVec.toInt_eq_toNat_cond v
  have hb : v.getLsbD 15 = decide (32768 ≤ v.toNat) := by
    have h := BitVec.msb_eq_decide v
    rw [BitVec.msb_eq_getLsbD_last] at h
    simpa using h
  unfold Classifies flagOf
  by_cases h0 : v = 0#16
  · subst h0
    simp
  · have hz : v.toNat ≠ 0 := fun h => h0 (BitVec.eq_of_toNat_eq h)
    rw [if_neg h0, hb]
    split at hi <;> by_cases h1 : 32768 ≤ v.toNat <;> simp [h1] <;> omega

end Sys2Proof.Machine
end

