-- ==== Sys2Proof/Laws/State.lean ====
section
/-! SUPPORT. One lemma per field per update of the state, so that no proof unfolds a record update. -/

namespace Sys2Proof.Machine

variable (s : State) (i j : Fin 8) (v : Word) (f : Cond) (m : Memory)

/-! ### `setGpr` -/

@[simp] theorem State.setGpr_pc : (s.setGpr i v).pc = s.pc := rfl
@[simp] theorem State.setGpr_cond : (s.setGpr i v).cond = s.cond := rfl
@[simp] theorem State.setGpr_halted : (s.setGpr i v).halted = s.halted := rfl
@[simp] theorem State.setGpr_runState : (s.setGpr i v).runState = s.runState := rfl
@[simp] theorem State.setGpr_fault : (s.setGpr i v).fault = s.fault := rfl
@[simp] theorem State.setGpr_mem : (s.setGpr i v).mem = s.mem := rfl

/-- A general register reads as what was last written to it, and no other is touched (10_state.md R20). -/
theorem State.gpr_setGpr : (s.setGpr i v).gpr j = if i = j then v else s.gpr j := by
  simp [State.gpr, State.setGpr, Vector.get_eq_getElem, Vector.getElem_set, Fin.ext_iff]

@[simp] theorem State.gpr_setGpr_self : (s.setGpr i v).gpr i = v := by simp [State.gpr_setGpr]

/-! ### `setPc` -/

@[simp] theorem State.setPc_gpr : (s.setPc v).gpr i = s.gpr i := rfl
@[simp] theorem State.setPc_regs : (s.setPc v).regs = s.regs := rfl
@[simp] theorem State.setPc_pc : (s.setPc v).pc = v := rfl
@[simp] theorem State.setPc_cond : (s.setPc v).cond = s.cond := rfl
@[simp] theorem State.setPc_halted : (s.setPc v).halted = s.halted := rfl
@[simp] theorem State.setPc_runState : (s.setPc v).runState = s.runState := rfl
@[simp] theorem State.setPc_fault : (s.setPc v).fault = s.fault := rfl
@[simp] theorem State.setPc_mem : (s.setPc v).mem = s.mem := rfl

/-! ### `setCond` -/

@[simp] theorem State.setCond_gpr : (s.setCond f).gpr i = s.gpr i := rfl
@[simp] theorem State.setCond_regs : (s.setCond f).regs = s.regs := rfl
@[simp] theorem State.setCond_pc : (s.setCond f).pc = s.pc := rfl
@[simp] theorem State.setCond_cond : (s.setCond f).cond = f := rfl
@[simp] theorem State.setCond_halted : (s.setCond f).halted = s.halted := rfl
@[simp] theorem State.setCond_runState : (s.setCond f).runState = s.runState := rfl
@[simp] theorem State.setCond_fault : (s.setCond f).fault = s.fault := rfl
@[simp] theorem State.setCond_mem : (s.setCond f).mem = s.mem := rfl

/-! ### `setMem` -/

@[simp] theorem State.setMem_gpr : (s.setMem m).gpr i = s.gpr i := rfl
@[simp] theorem State.setMem_regs : (s.setMem m).regs = s.regs := rfl
@[simp] theorem State.setMem_pc : (s.setMem m).pc = s.pc := rfl
@[simp] theorem State.setMem_cond : (s.setMem m).cond = s.cond := rfl
@[simp] theorem State.setMem_halted : (s.setMem m).halted = s.halted := rfl
@[simp] theorem State.setMem_runState : (s.setMem m).runState = s.runState := rfl
@[simp] theorem State.setMem_fault : (s.setMem m).fault = s.fault := rfl
@[simp] theorem State.setMem_mem : (s.setMem m).mem = m := rfl

/-! ### `raise`: only `runState` and `fault`, and only of a RUNNING core -/

variable (e : FatalError)

@[simp] theorem State.raise_gpr : (s.raise e).gpr i = s.gpr i := by
  unfold State.raise; split <;> rfl
@[simp] theorem State.raise_regs : (s.raise e).regs = s.regs := by
  unfold State.raise; split <;> rfl
@[simp] theorem State.raise_pc : (s.raise e).pc = s.pc := by
  unfold State.raise; split <;> rfl
@[simp] theorem State.raise_cond : (s.raise e).cond = s.cond := by
  unfold State.raise; split <;> rfl
@[simp] theorem State.raise_halted : (s.raise e).halted = s.halted := by
  unfold State.raise; split <;> rfl
@[simp] theorem State.raise_mem : (s.raise e).mem = s.mem := by
  unfold State.raise; split <;> rfl

/-- Raising in a RUNNING core enters FAULTED with the record (60_exceptions.md R126). -/
theorem State.raise_of_running (h : s.runState = .running) :
    s.raise e = { s with runState := .faulted, fault := some e } := by
  simp [State.raise, h]

/-- Raising in a HALTED or FAULTED core changes nothing (10_state.md R30, 60_exceptions.md R128). -/
theorem State.raise_of_not_running (h : s.runState ≠ .running) : s.raise e = s := by
  unfold State.raise; split <;> simp_all

end Sys2Proof.Machine
end

