-- ==== Sys2Proof/Laws/Memory.lean ====
section
/-! SUPPORT. Memory: every operation keeps the canonical form, a read after a write, and what any `MEM_INIT` reads as. -/

namespace Sys2Proof.Machine

/-! ### Entries below an index -/

/-- Every entry of `m` stands above index `k`. -/
abbrev Memory.Above (k : Nat) (m : Memory) : Prop := ∀ c ∈ m, k < c.1

theorem Memory.wf_nil : Memory.wf [] := by decide

theorem Memory.wf_cons {j : Nat} {b : Byte} {m : Memory} :
    Memory.wf ((j, b) :: m) ↔ (Memory.Above j m ∧ j < byteCount ∧ b ≠ Memory.unlisted) ∧ Memory.wf m := by
  simp only [Memory.wf, Memory.Above, List.pairwise_cons, List.forall_mem_cons]
  constructor
  · rintro ⟨⟨h1, h2⟩, h3, h4⟩
    exact ⟨⟨h1, h3⟩, h2, h4⟩
  · rintro ⟨⟨h1, h3⟩, h2, h4⟩
    exact ⟨⟨h1, h2⟩, h3, h4⟩

theorem Memory.consByte_wf {k : Nat} {v : Byte} {m : Memory} (hk : k < byteCount) (ha : Memory.Above k m)
    (h : m.wf) : (Memory.consByte k v m).wf := by
  unfold Memory.consByte
  split
  · exact h
  · exact Memory.wf_cons.2 ⟨⟨ha, hk, ‹_›⟩, h⟩

theorem Memory.readByte_above {k : Nat} {m : Memory} (ha : Memory.Above k m) : m.readByte k = Memory.unlisted := by
  induction m with
  | nil => rfl
  | cons c m ih =>
    have hk : k < c.1 := ha c (by simp)
    rw [Memory.readByte, if_neg (by omega)]
    exact ih fun d hd => ha d (by simp [hd])

theorem Memory.readByte_consByte {k n : Nat} {v : Byte} {m : Memory} (ha : Memory.Above k m) :
    (Memory.consByte k v m).readByte n = if k = n then v else m.readByte n := by
  unfold Memory.consByte
  split
  · rename_i hv
    split
    · rename_i hn
      subst hn
      rw [Memory.readByte_above ha, hv]
    · rfl
  · rfl

/-! ### Writing a byte -/

theorem Memory.writeByte_above {j k : Nat} {v : Byte} {m : Memory} (hj : j < k) (ha : Memory.Above j m) :
    Memory.Above j (m.writeByte k v) := by
  induction m with
  | nil =>
    unfold Memory.writeByte Memory.consByte
    split <;> simp [Memory.Above, hj]
  | cons c m ih =>
    have hc : j < c.1 := ha c (by simp)
    have hm : Memory.Above j m := fun d hd => ha d (by simp [hd])
    unfold Memory.writeByte Memory.consByte
    split
    · split
      · exact ha
      · intro d hd
        rcases List.mem_cons.1 hd with rfl | hd
        · exact hj
        · exact ha d hd
    · split
      · split
        · exact hm
        · intro d hd
          rcases List.mem_cons.1 hd with rfl | hd
          · exact hj
          · exact hm d hd
      · intro d hd
        rcases List.mem_cons.1 hd with rfl | hd
        · exact hc
        · exact ih hm d hd

/-- Writing a byte keeps the canonical form. -/
theorem Memory.writeByte_wf {k : Nat} {v : Byte} {m : Memory} (hk : k < byteCount) (h : m.wf) :
    (m.writeByte k v).wf := by
  induction m with
  | nil => exact Memory.consByte_wf hk (by simp [Memory.Above]) h
  | cons c m ih =>
    obtain ⟨⟨ha, hc⟩, hm⟩ := Memory.wf_cons.1 h
    unfold Memory.writeByte
    split
    · rename_i hlt
      refine Memory.consByte_wf hk (fun d hd => ?_) h
      rcases List.mem_cons.1 hd with rfl | hd
      · exact hlt
      · exact Nat.lt_trans hlt (ha d hd)
    · split
      · rename_i heq
        exact Memory.consByte_wf hk (heq ▸ ha) hm
      · exact Memory.wf_cons.2 ⟨⟨Memory.writeByte_above (by omega) ha, hc⟩, ih hm⟩

/-- Reading a byte after a write: the value written, or what was there. -/
theorem Memory.readByte_writeByte {k n : Nat} {v : Byte} {m : Memory} (h : m.wf) :
    (m.writeByte k v).readByte n = if k = n then v else m.readByte n := by
  induction m with
  | nil => exact Memory.readByte_consByte (by simp [Memory.Above])
  | cons c m ih =>
    obtain ⟨⟨ha, -⟩, hm⟩ := Memory.wf_cons.1 h
    unfold Memory.writeByte
    split
    · rename_i hlt
      refine Memory.readByte_consByte fun d hd => ?_
      rcases List.mem_cons.1 hd with rfl | hd
      · exact hlt
      · exact Nat.lt_trans hlt (ha d hd)
    · split
      · rename_i heq
        rw [Memory.readByte_consByte (heq ▸ ha), Memory.readByte]
        split
        · rfl
        · rw [if_neg (by omega)]
      · rw [Memory.readByte, ih hm, Memory.readByte]
        split <;> split <;> first | rfl | omega

/-! ### Words -/

theorem loIndex_lt (a : Word) : loIndex a < byteCount := by unfold loIndex byteCount; omega
theorem hiIndex_lt (a : Word) : hiIndex a < byteCount := by unfold hiIndex byteCount; omega

theorem loIndex_inj {a b : Word} : loIndex a = loIndex b ↔ a = b := by
  simp [loIndex, BitVec.toNat_inj]
theorem hiIndex_inj {a b : Word} : hiIndex a = hiIndex b ↔ a = b := by
  simp [hiIndex, BitVec.toNat_inj]
theorem loIndex_ne_hiIndex (a b : Word) : loIndex a ≠ hiIndex b := by unfold loIndex hiIndex; omega

/-- A word is its two halves. -/
theorem highByte_append_lowByte (v : Word) : highByte v ++ lowByte v = v := by
  unfold highByte lowByte
  apply BitVec.eq_of_getLsbD_eq
  intro i hi
  simp only [BitVec.getLsbD_append, BitVec.getLsbD_extractLsb']
  by_cases h : i < 8
  · simp [h]
  · have : i - 8 < 8 := by omega
    have e : 8 + (i - 8) = i := by omega
    simp [h, this, e]

/-- Writing a word keeps the canonical form. -/
theorem Memory.writeWord_wf {a v : Word} {m : Memory} (h : m.wf) : (m.writeWord a v).wf :=
  Memory.writeByte_wf (hiIndex_lt a) (Memory.writeByte_wf (loIndex_lt a) h)

/-- Reading a word after a write: the value written, or what was there (20_memory.md R41, R42). -/
theorem Memory.readWord_writeWord {a b v : Word} {m : Memory} (h : m.wf) :
    (m.writeWord a v).readWord b = if a = b then v else m.readWord b := by
  have h' := Memory.writeByte_wf (v := lowByte v) (loIndex_lt a) h
  unfold Memory.writeWord Memory.readWord
  rw [Memory.readByte_writeByte h', Memory.readByte_writeByte h', Memory.readByte_writeByte h,
    Memory.readByte_writeByte h, if_neg (loIndex_ne_hiIndex a b), if_neg (loIndex_ne_hiIndex b a).symm]
  simp only [loIndex_inj, hiIndex_inj]
  split
  · exact highByte_append_lowByte v
  · rfl

/-! ### The bounds-checked accesses -/

theorem wordOf?_ofNat (n : Nat) :
    wordOf? (.ofNat n) = if n < 65536 then some (BitVec.ofNat 16 n) else none := rfl

/-- An integer is a Word exactly where it lies in 0..65535. -/
theorem wordOf?_eq_some {addr : Int} {a : Word} : wordOf? addr = some a ↔ addr = addrOf a := by
  cases addr with
  | ofNat n =>
    have e : Int.ofNat n = addrOf a ↔ n = a.toNat := by unfold addrOf; simp
    rw [e, wordOf?_ofNat]
    split
    · rw [Option.some_inj, ← BitVec.toNat_inj, BitVec.toNat_ofNat, Nat.mod_eq_of_lt (by omega)]
    · simp only [reduceCtorEq, false_iff]
      omega
  | negSucc n => simp [wordOf?, addrOf]

theorem wordOf?_eq_none {addr : Int} : wordOf? addr = none ↔ ¬ (0 ≤ addr ∧ addr < 65536) := by
  cases addr with
  | ofNat n =>
    rw [wordOf?_ofNat]
    split <;> simp <;> omega
  | negSucc n => simp [wordOf?]

@[simp] theorem wordOf?_addrOf (a : Word) : wordOf? (addrOf a) = some a := wordOf?_eq_some.2 rfl

/-- A 16-bit address is never out of bounds (20_memory.md R41). -/
@[simp] theorem memRead_addrOf (m : Memory) (a : Word) : memRead m (addrOf a) = .ok (m.readWord a) := by
  simp [memRead]

/-- A 16-bit address is never out of bounds (20_memory.md R42). -/
@[simp] theorem memWrite_addrOf (m : Memory) (a v : Word) : memWrite m (addrOf a) v = .ok (m.writeWord a v) := by
  simp [memWrite]

/-- The two reads of `readIndirect` always succeed (20_memory.md R43). -/
@[simp] theorem readIndirect_eq (m : Memory) (a : Word) : readIndirect m a = .ok (m.readWord (m.readWord a)) := by
  simp [readIndirect]

/-- Everything a write can do: the word written at an address in bounds, or the error of one that is not. -/
theorem memWrite_cases (m : Memory) (addr : Int) (v : Word) :
    (∃ a, addr = addrOf a ∧ memWrite m addr v = .ok (m.writeWord a v)) ∨
      (¬ (0 ≤ addr ∧ addr < 65536) ∧ memWrite m addr v = .error (.outOfBounds addr)) := by
  unfold memWrite
  cases h : wordOf? addr with
  | none => exact .inr ⟨wordOf?_eq_none.1 h, rfl⟩
  | some a => exact .inl ⟨a, wordOf?_eq_some.1 h, rfl⟩

/-- Everything a read can do: the word at an address in bounds, or the error of one that is not. -/
theorem memRead_cases (m : Memory) (addr : Int) :
    (∃ a, addr = addrOf a ∧ memRead m addr = .ok (m.readWord a)) ∨
      (¬ (0 ≤ addr ∧ addr < 65536) ∧ memRead m addr = .error (.outOfBounds addr)) := by
  unfold memRead
  cases h : wordOf? addr with
  | none => exact .inr ⟨wordOf?_eq_none.1 h, rfl⟩
  | some a => exact .inl ⟨a, wordOf?_eq_some.1 h, rfl⟩

/-! ### Any initial content (20_memory.md R48) -/

/-- `Memory.ofFn` over the indices from `i` on. -/
theorem Memory.ofFn_from (f : Word → Word) (n i : Nat) (hn : i + n ≤ byteCount) :
    let m := (List.range' i n).foldr (fun k m => Memory.consByte k (byteOf f k) m) []
    m.wf ∧ (∀ c ∈ m, i ≤ c.1) ∧ ∀ k, m.readByte k = if i ≤ k ∧ k < i + n then byteOf f k else Memory.unlisted := by
  induction n generalizing i with
  | zero =>
    refine ⟨Memory.wf_nil, by simp, fun k => ?_⟩
    rw [if_neg (by omega)]
    rfl
  | succ n ih =>
    obtain ⟨h1, h2, h3⟩ := ih (i + 1) (by omega)
    have ha : Memory.Above i ((List.range' (i + 1) n).foldr (fun k m => Memory.consByte k (byteOf f k) m) []) :=
      fun c hc => h2 c hc
    simp only [List.range'_succ, List.foldr_cons]
    refine ⟨Memory.consByte_wf (by omega) ha h1, fun c hc => ?_, fun k => ?_⟩
    · unfold Memory.consByte at hc
      split at hc
      · exact Nat.le_of_lt (ha c hc)
      · rcases List.mem_cons.1 hc with rfl | hc
        · exact Nat.le_refl _
        · exact Nat.le_of_lt (ha c hc)
    · rw [Memory.readByte_consByte ha, h3]
      by_cases hik : i = k
      · subst hik
        rw [if_pos rfl, if_pos (by omega)]
      · rw [if_neg hik]
        by_cases hk : i + 1 ≤ k ∧ k < i + 1 + n
        · rw [if_pos hk, if_pos (by omega)]
        · rw [if_neg hk, if_neg (by omega)]

theorem Memory.ofFn_spec (f : Word → Word) :
    (Memory.ofFn f).wf ∧
      ∀ k, (Memory.ofFn f).readByte k = if k < byteCount then byteOf f k else Memory.unlisted := by
  obtain ⟨h1, -, h3⟩ := Memory.ofFn_from f byteCount 0 (by omega)
  unfold Memory.ofFn
  rw [List.range_eq_range']
  refine ⟨h1, fun k => ?_⟩
  rw [h3 k]
  simp

/-- Any initial content is in canonical form. -/
theorem Memory.ofFn_wf (f : Word → Word) : (Memory.ofFn f).wf := (Memory.ofFn_spec f).1

/-- Any initial content reads as given. -/
@[simp] theorem Memory.readWord_ofFn (f : Word → Word) (a : Word) : (Memory.ofFn f).readWord a = f a := by
  have h := (Memory.ofFn_spec f).2
  unfold Memory.readWord
  rw [h, h, if_pos (hiIndex_lt a), if_pos (loIndex_lt a)]
  have h0 : loIndex a % 2 = 0 := by unfold loIndex; omega
  have h1 : ¬ hiIndex a % 2 = 0 := by unfold hiIndex; omega
  have e0 : BitVec.ofNat 16 (loIndex a / 2) = a := by
    have : loIndex a / 2 = a.toNat := by unfold loIndex; omega
    simp [this]
  have e1 : BitVec.ofNat 16 (hiIndex a / 2) = a := by
    have : hiIndex a / 2 = a.toNat := by unfold hiIndex; omega
    simp [this]
  unfold byteOf
  rw [if_pos h0, if_neg h1, e0, e1]
  exact highByte_append_lowByte _

/-! ### The reset action, field by field -/

section
variable (p : ResetParams)

@[simp] theorem State.resetWith_pc : (State.resetWith p).pc = 0x3000#16 := rfl
@[simp] theorem State.resetWith_cond : (State.resetWith p).cond = p.condReset := rfl
@[simp] theorem State.resetWith_halted : (State.resetWith p).halted = false := rfl
@[simp] theorem State.resetWith_runState : (State.resetWith p).runState = .running := rfl
@[simp] theorem State.resetWith_fault : (State.resetWith p).fault = none := rfl
@[simp] theorem State.resetWith_mem : (State.resetWith p).mem = Memory.ofFn p.memInit := rfl
@[simp] theorem State.resetWith_regs : (State.resetWith p).regs = Vector.ofFn p.gprReset := rfl
@[simp] theorem State.resetWith_gpr (i : Fin 8) : (State.resetWith p).gpr i = p.gprReset i := by
  simp [State.gpr, Vector.get_eq_getElem]

/-- Memory after any reset is in canonical form. -/
theorem State.resetWith_mem_wf : (State.resetWith p).mem.wf := by
  rw [State.resetWith_mem]
  exact Memory.ofFn_wf _

end

/-- The reset state's memory is in canonical form. -/
theorem State.reset_mem_wf : State.reset.mem.wf := Memory.wf_nil

end Sys2Proof.Machine
end

