-- ==== Sys2Proof/Laws/Operations.lean ====
section
/-! SUPPORT. One spec lemma per shared operation: register validation, `setcc`, the shapes of the rules, fetch, reset. -/

namespace Sys2Proof.Machine

/-! ### Register operands (10_state.md R21) -/

@[simp] theorem gprIndex?_val (i : Fin 8) : gprIndex? i.val = some i := by simp [gprIndex?]

theorem gprIndex?_of_ge {i : Nat} (h : 8 ≤ i) : gprIndex? i = none := by simp [gprIndex?]; omega

/-- An index in 0..7 is accepted. -/
@[simp] theorem gprOperand_val (i : Fin 8) : gprOperand i.val = .ok i := by simp [gprOperand]

/-- Any other index is an InvalidRegister (60_exceptions.md R122). -/
theorem gprOperand_of_ge {i : Nat} (h : 8 ≤ i) : gprOperand i = .error (.invalidRegister i) := by
  simp [gprOperand, gprIndex?_of_ge h]

/-- Everything validation can answer. -/
theorem gprOperand_cases (i : Nat) :
    (∃ r : Fin 8, i = r.val ∧ gprOperand i = .ok r) ∨ (8 ≤ i ∧ gprOperand i = .error (.invalidRegister i)) := by
  by_cases h : i < 8
  · exact .inl ⟨⟨i, h⟩, rfl, gprOperand_val ⟨i, h⟩⟩
  · exact .inr ⟨by omega, gprOperand_of_ge (by omega)⟩

/-! ### Writing a result (10_state.md R27, R28) -/

@[simp] theorem setcc_val (i : Fin 8) (s : State) : setcc i.val s = .ok (s.setCond (flagOf (s.gpr i))) := by
  simp [setcc]

/-- Writing a result always succeeds: the register, then its flag. -/
@[simp] theorem writeResult_eq (d : Fin 8) (v : Word) (s : State) :
    writeResult d v s = .ok ((s.setGpr d v).setCond (flagOf v)) := by simp [writeResult]

/-! ### The shapes of the rules -/

theorem aluReg_val (f : Word → Word → Word) (d r1 r2 : Fin 8) (s : State) :
    aluReg f d r1 r2 s =
      .ok ((s.setGpr d (f (s.gpr r1) (s.gpr r2))).setCond (flagOf (f (s.gpr r1) (s.gpr r2)))) := by
  simp [aluReg, bind, Except.bind]

theorem aluOne_val (f : Word → Word) (d r1 : Fin 8) (s : State) :
    aluOne f d r1 s = .ok ((s.setGpr d (f (s.gpr r1))).setCond (flagOf (f (s.gpr r1)))) := by
  simp [aluOne, bind, Except.bind]

theorem loadIndirect_val (d : Fin 8) (off9 : BitVec 9) (s : State) :
    loadIndirect d off9 s =
      .ok ((s.setGpr d (s.mem.readWord (s.mem.readWord (pcRelative off9 s)))).setCond
        (flagOf (s.mem.readWord (s.mem.readWord (pcRelative off9 s))))) := by
  simp [loadIndirect, bind, Except.bind]

/-- What a rule of the register-writing shape can answer: DR, at index `dr`, written with its flag, or an
InvalidRegister raised. -/
abbrev WritesOrRaises (dr : Nat) (s : State) (r : Except FatalError State) : Prop :=
  (∃ (d : Fin 8) (v : Word), dr = d.val ∧ r = .ok ((s.setGpr d v).setCond (flagOf v))) ∨
    ∃ i : Nat, 8 ≤ i ∧ r = .error (.invalidRegister i)

theorem aluReg_cases (f : Word → Word → Word) (dr sr1 sr2 : Nat) (s : State) :
    WritesOrRaises dr s (aluReg f dr sr1 sr2 s) := by
  rcases gprOperand_cases dr with ⟨d, rfl, -⟩ | ⟨h, e⟩
  · rcases gprOperand_cases sr1 with ⟨r1, rfl, -⟩ | ⟨h, e⟩
    · rcases gprOperand_cases sr2 with ⟨r2, rfl, -⟩ | ⟨h, e⟩
      · exact .inl ⟨d, _, rfl, aluReg_val f d r1 r2 s⟩
      · exact .inr ⟨sr2, h, by simp [aluReg, bind, Except.bind, e]⟩
    · exact .inr ⟨sr1, h, by simp [aluReg, bind, Except.bind, e]⟩
  · exact .inr ⟨dr, h, by simp [aluReg, bind, Except.bind, e]⟩

theorem aluOne_cases (f : Word → Word) (dr sr1 : Nat) (s : State) : WritesOrRaises dr s (aluOne f dr sr1 s) := by
  rcases gprOperand_cases dr with ⟨d, rfl, -⟩ | ⟨h, e⟩
  · rcases gprOperand_cases sr1 with ⟨r1, rfl, -⟩ | ⟨h, e⟩
    · exact .inl ⟨d, _, rfl, aluOne_val f d r1 s⟩
    · exact .inr ⟨sr1, h, by simp [aluOne, bind, Except.bind, e]⟩
  · exact .inr ⟨dr, h, by simp [aluOne, bind, Except.bind, e]⟩

theorem loadIndirect_cases (dr : Nat) (off9 : BitVec 9) (s : State) :
    WritesOrRaises dr s (loadIndirect dr off9 s) := by
  rcases gprOperand_cases dr with ⟨d, rfl, -⟩ | ⟨h, e⟩
  · exact .inl ⟨d, _, rfl, loadIndirect_val d off9 s⟩
  · exact .inr ⟨dr, h, by simp [loadIndirect, bind, Except.bind, e]⟩

@[simp] theorem settle_ok (s t : State) : settle s (.ok t) = .next t := rfl
@[simp] theorem settle_error (s : State) (e : FatalError) : settle s (.error e) = .next (s.raise e) := rfl

/-- The fetch always succeeds: its address is a Word (40_cycle.md R81). -/
@[simp] theorem fetch_eq (s : State) : fetch s = .ok (s.mem.readWord s.pc, s.setPc (nextPc s.pc)) := by
  simp [fetch]

/-! ### Everything an instruction and a step can do -/

/-- What executing an instruction can end in: a register written with its flag, `pc` moved by a branch, nothing
changed by a branch, or an InvalidRegister raised. -/
inductive ExecEnds (s : State) : Instr → State → Prop where
  | writes {i : Instr} (d : Fin 8) (v : Word) (h : ∀ mask off9, i ≠ .br mask off9) :
      ExecEnds s i ((s.setGpr d v).setCond (flagOf v))
  | branches (mask : BitVec 3) (off9 : BitVec 9) (h : branchTaken mask s.cond = true) :
      ExecEnds s (.br mask off9) (s.setPc (pcRelative off9 s))
  | falls (mask : BitVec 3) (off9 : BitVec 9) (h : branchTaken mask s.cond = false) : ExecEnds s (.br mask off9) s
  | raises {i : Instr} (k : Nat) (h : 8 ≤ k) (hi : i.wellFormed = false) :
      ExecEnds s i (s.raise (.invalidRegister k))

theorem execEnds_settle {i : Instr} {dr : Nat} {s : State} {r : Except FatalError State}
    (hb : ∀ mask off9, i ≠ .br mask off9) (hw : i.wellFormed = true → ∃ t, r = .ok t)
    (h : WritesOrRaises dr s r) : ∃ t, settle s r = .next t ∧ ExecEnds s i t := by
  rcases h with ⟨d, v, -, rfl⟩ | ⟨k, hk, rfl⟩
  · exact ⟨_, rfl, .writes d v hb⟩
  · refine ⟨_, rfl, .raises k hk ?_⟩
    cases hi : i.wellFormed with
    | false => rfl
    | true =>
      obtain ⟨t, ht⟩ := hw hi
      cases ht

/-- Every instruction answers a next state, of one of these four kinds. -/
theorem exec_ends (i : Instr) (s : State) : ∃ t, exec i s = .next t ∧ ExecEnds s i t := by
  have fin : ∀ {k : Nat}, isGprIndex k = true → ∃ r : Fin 8, k = r.val := fun h =>
    ⟨⟨_, of_decide_eq_true h⟩, rfl⟩
  cases i with
  | addReg dr sr1 sr2 =>
    refine execEnds_settle (fun _ _ h => by cases h) (fun hw => ?_) (aluReg_cases _ dr sr1 sr2 s)
    simp only [Instr.wellFormed, Bool.and_eq_true] at hw
    obtain ⟨⟨h1, h2⟩, h3⟩ := hw
    obtain ⟨d, rfl⟩ := fin h1
    obtain ⟨r1, rfl⟩ := fin h2
    obtain ⟨r2, rfl⟩ := fin h3
    exact ⟨_, aluReg_val _ d r1 r2 s⟩
  | addImm dr sr1 imm5 =>
    refine execEnds_settle (fun _ _ h => by cases h) (fun hw => ?_) (aluOne_cases _ dr sr1 s)
    simp only [Instr.wellFormed, Bool.and_eq_true] at hw
    obtain ⟨h1, h2⟩ := hw
    obtain ⟨d, rfl⟩ := fin h1
    obtain ⟨r1, rfl⟩ := fin h2
    exact ⟨_, aluOne_val _ d r1 s⟩
  | andReg dr sr1 sr2 =>
    refine execEnds_settle (fun _ _ h => by cases h) (fun hw => ?_) (aluReg_cases _ dr sr1 sr2 s)
    simp only [Instr.wellFormed, Bool.and_eq_true] at hw
    obtain ⟨⟨h1, h2⟩, h3⟩ := hw
    obtain ⟨d, rfl⟩ := fin h1
    obtain ⟨r1, rfl⟩ := fin h2
    obtain ⟨r2, rfl⟩ := fin h3
    exact ⟨_, aluReg_val _ d r1 r2 s⟩
  | andImm dr sr1 imm5 =>
    refine execEnds_settle (fun _ _ h => by cases h) (fun hw => ?_) (aluOne_cases _ dr sr1 s)
    simp only [Instr.wellFormed, Bool.and_eq_true] at hw
    obtain ⟨h1, h2⟩ := hw
    obtain ⟨d, rfl⟩ := fin h1
    obtain ⟨r1, rfl⟩ := fin h2
    exact ⟨_, aluOne_val _ d r1 s⟩
  | not dr sr1 =>
    refine execEnds_settle (fun _ _ h => by cases h) (fun hw => ?_) (aluOne_cases _ dr sr1 s)
    simp only [Instr.wellFormed, Bool.and_eq_true] at hw
    obtain ⟨h1, h2⟩ := hw
    obtain ⟨d, rfl⟩ := fin h1
    obtain ⟨r1, rfl⟩ := fin h2
    exact ⟨_, aluOne_val _ d r1 s⟩
  | br mask off9 =>
    cases h : branchTaken mask s.cond with
    | true => exact ⟨_, by simp [exec, execBr, h], .branches mask off9 h⟩
    | false => exact ⟨_, by simp [exec, execBr, h], .falls mask off9 h⟩
  | ldi dr off9 =>
    refine execEnds_settle (fun _ _ h => by cases h) (fun hw => ?_) (loadIndirect_cases dr off9 s)
    obtain ⟨d, rfl⟩ := fin hw
    exact ⟨_, loadIndirect_val d off9 s⟩

/-- What a step can end in, with the word it fetched: nothing where the core is not RUNNING; else an instruction's end
from the state with `pc` incremented, or an InvalidOpcode (40_cycle.md R80 to R82). -/
theorem step_cases (s : State) :
    (s.runState ≠ .running ∧ step s = .next s) ∨
      (s.runState = .running ∧
        ((∃ i t, decode (s.mem.readWord s.pc) = .instr i ∧ step s = exec i (s.setPc (nextPc s.pc)) ∧
            step s = .next t ∧ ExecEnds (s.setPc (nextPc s.pc)) i t) ∨
          ∃ op, decode (s.mem.readWord s.pc) = .invalid op ∧
            step s = .next ((s.setPc (nextPc s.pc)).raise
              (.invalidOpcode op (s.mem.readWord s.pc) s.pc)))) := by
  cases hr : s.runState with
  | running =>
    refine .inr ⟨rfl, ?_⟩
    cases hd : decode (s.mem.readWord s.pc) with
    | instr i =>
      obtain ⟨t, ht, he⟩ := exec_ends i (s.setPc (nextPc s.pc))
      have hs : step s = exec i (s.setPc (nextPc s.pc)) := by simp [step, hr, hd]
      exact .inl ⟨i, t, rfl, hs, hs.trans ht, he⟩
    | invalid op => exact .inr ⟨op, rfl, by simp [step, hr, hd, execInvalid]⟩
  | halted => exact .inl ⟨by simp, by simp [step, hr]⟩
  | faulted => exact .inl ⟨by simp, by simp [step, hr]⟩

end Sys2Proof.Machine
end

