-- ==== Sys2Proof/Laws/PerInstr.lean ====
section
/-! SUPPORT. A fact of every instruction as syntax: the opcode field its word carries (30_encoding.md R62). -/

namespace Sys2Proof.Laws.OpcodeField

/-- The opcode R62 assigns to the instruction, as a number. -/
def assigned : Instr → Nat
  | .addReg _ _ _ => 0x1
  | .addImm _ _ _ => 0x1
  | .andReg _ _ _ => 0x5
  | .andImm _ _ _ => 0x5
  | .not _ _ => 0x9
  | .br _ _ => 0x0
  | .ldi _ _ => 0xA

/-- The encoded word carries the assigned opcode in bits 15..12, for every operand. -/
def Statement (i : Instr) : Prop := (opcode (encode i)).toNat = assigned i

theorem addReg (dr sr1 sr2 : Nat) : Statement (.addReg dr sr1 sr2) := by
  rw [Statement, opcode_toNat, encode_addReg_toNat, assigned]
  omega

theorem addImm (dr sr1 : Nat) (imm5 : BitVec 5) : Statement (.addImm dr sr1 imm5) := by
  rw [Statement, opcode_toNat, encode_addImm_toNat, assigned]
  omega

theorem andReg (dr sr1 sr2 : Nat) : Statement (.andReg dr sr1 sr2) := by
  rw [Statement, opcode_toNat, encode_andReg_toNat, assigned]
  omega

theorem andImm (dr sr1 : Nat) (imm5 : BitVec 5) : Statement (.andImm dr sr1 imm5) := by
  rw [Statement, opcode_toNat, encode_andImm_toNat, assigned]
  omega

theorem not (dr sr1 : Nat) : Statement (.not dr sr1) := by
  rw [Statement, opcode_toNat, encode_not_toNat, assigned]
  omega

theorem br (mask : BitVec 3) (off9 : BitVec 9) : Statement (.br mask off9) := by
  rw [Statement, opcode_toNat, encode_br_toNat, assigned]
  omega

theorem ldi (dr : Nat) (off9 : BitVec 9) : Statement (.ldi dr off9) := by
  rw [Statement, opcode_toNat, encode_ldi_toNat, assigned]
  omega

end Sys2Proof.Laws.OpcodeField
end

