-- ==== Sys2Proof/Laws/Run.lean ====
section
/-! SUPPORT. One step of a run: the host's repetition of the step, and the Run of 40_cycle.md R83. -/

namespace Sys2Proof.Machine

/-- The host's repetition, one step unrolled, of any machine. -/
theorem coreRun_succ {M : Host.Core} {k : Nat} {s t : M.State} (h : M.step s = .next t) :
    M.run (k + 1) s = M.run k t := by rw [Host.Core.run, h]

/-- The same for this machine's step. -/
theorem run_succ {k : Nat} {s t : State} (h : step s = .next t) :
    Host.Core.run core (k + 1) s = Host.Core.run core k t := coreRun_succ (M := core) h

@[simp] theorem run_zero (s : State) : Host.Core.run core 0 s = .next s := rfl

@[simp] theorem runFor_zero (s : State) : runFor 0 s = .next s := rfl

/-- A Run of a RUNNING core makes a step and runs on. -/
theorem runFor_succ {k : Nat} {s t : State} (hr : s.runState = .running) (h : step s = .next t) :
    runFor (k + 1) s = runFor k t := by rw [runFor, hr, h]

/-- A Run of a core that is not RUNNING makes no step. -/
theorem runFor_of_not_running {s : State} (h : s.runState ≠ .running) (k : Nat) : runFor k s = .next s := by
  cases k with
  | zero => rfl
  | succ k =>
    rw [runFor]
    split <;> simp_all

/-- A Run of any budget answers a next state. -/
theorem runFor_next (k : Nat) (s : State) : ∃ t, runFor k s = .next t := by
  induction k generalizing s with
  | zero => exact ⟨s, rfl⟩
  | succ k ih =>
    by_cases hr : s.runState = .running
    · rcases step_cases s with ⟨h, -⟩ | ⟨-, ⟨i, t, -, -, h, -⟩ | ⟨op, -, h⟩⟩
      · exact absurd hr h
      · rw [runFor_succ hr h]
        exact ih t
      · rw [runFor_succ hr h]
        exact ih _
    · exact ⟨s, runFor_of_not_running hr _⟩

end Sys2Proof.Machine
end

