-- ==== Sys2Proof/Laws/Transactions.lean ====
section
/-! SUPPORT. Everything a host transaction can do to the core. -/

namespace Sys2Proof.Machine

/-- The loader changes nothing but memory, and keeps its canonical form. -/
theorem loadWords_mem (ws : List Word) (i : Nat) (s : State) :
    ∃ m, (s.mem.wf → m.wf) ∧ ∃ e, loadWords i ws s = (s.setMem m, e) := by
  induction ws generalizing i s with
  | nil => exact ⟨s.mem, id, none, rfl⟩
  | cons w ws ih =>
    rcases memWrite_cases s.mem (startAddress + i) w with ⟨a, -, e⟩ | ⟨-, e⟩
    · obtain ⟨m, hm, r, h⟩ := ih (i + 1) (s.setMem (s.mem.writeWord a w))
      refine ⟨m, fun hw => hm (Memory.writeWord_wf hw), r, ?_⟩
      rw [loadWords, e]
      exact h
    · refine ⟨s.mem, id, some (.outOfBounds (startAddress + i)), ?_⟩
      rw [loadWords, e]
      rfl

/-- What a transaction other than Reset can leave of the core `s`: memory replaced by another in canonical form, an
error raised after that, a register slot written, or a run of some budget made. -/
inductive TransactEnds (s : State) : State → Prop where
  | memory (m : Memory) (h : s.mem.wf → m.wf) : TransactEnds s (s.setMem m)
  | raises (m : Memory) (e : FatalError) (h : s.mem.wf → m.wf) : TransactEnds s ((s.setMem m).raise e)
  | writesGpr (i : Fin 8) (v : Word) : TransactEnds s (s.setGpr i v)
  | writesPc (v : Word) : TransactEnds s (s.setPc v)
  | writesCond (f : Cond) : TransactEnds s (s.setCond f)
  | runs (k : Nat) (t : State) (h : runFor k s = .next t) : TransactEnds s t

theorem TransactEnds.same (s : State) : TransactEnds s s := .memory s.mem id

theorem TransactEnds.fails (s : State) (e : FatalError) : TransactEnds s (s.raise e) := .raises s.mem e id

theorem transactRun_ends {k : Nat} {q q' : Session} {a : HostReply} (h : transactRun k q = .next (q', a)) :
    TransactEnds q.core q'.core := by
  obtain ⟨t, ht⟩ := runFor_next k q.core
  unfold transactRun at h
  rw [ht] at h
  split at h <;> cases h
  · exact .same _
  · exact .runs k _ ht
  · exact .runs k _ ht

theorem transactLoad_ends {ws : List Int} {q q' : Session} {a : HostReply} (h : transactLoad ws q = .next (q', a)) :
    TransactEnds q.core q'.core := by
  unfold transactLoad at h
  split at h
  · split at h
    · cases h
    · rename_i words _
      obtain ⟨m, hm, e, hl⟩ := loadWords_mem words 0 q.core
      rw [hl] at h
      cases e with
      | none =>
        cases h
        exact .memory m hm
      | some e =>
        cases h
        exact .raises m e hm
  · cases h
  · cases h

theorem transactWriteReg_ends {i v : Int} {q q' : Session} {a : HostReply}
    (h : transactWriteReg i v q = .next (q', a)) : TransactEnds q.core q'.core := by
  unfold transactWriteReg at h
  split at h
  · cases h
  · split at h
    · cases h
      exact .fails _ _
    · cases h
      exact .writesGpr _ _
    · cases h
      exact .writesPc _
    · split at h
      · cases h
      · cases h
        exact .writesCond _

theorem transactWriteMem_ends {i v : Int} {q q' : Session} {a : HostReply}
    (h : transactWriteMem i v q = .next (q', a)) : TransactEnds q.core q'.core := by
  unfold transactWriteMem at h
  split at h
  · cases h
  · rename_i w _
    rcases memWrite_cases q.core.mem i w with ⟨b, -, e⟩ | ⟨-, e⟩
    · rw [e] at h
      cases h
      exact .memory _ Memory.writeWord_wf
    · rw [e] at h
      cases h
      exact .fails _ _

/-- Everything a transaction other than Reset can do to the core (70_reset_and_hazards.md R160). -/
theorem transact_ends {p : ResetParams} {r : HostRequest} {q q' : Session} {a : HostReply} (hr : r ≠ .reset)
    (h : transact p r q = .next (q', a)) : TransactEnds q.core q'.core := by
  cases r with
  | reset => exact absurd rfl hr
  | loadImage ws => exact transactLoad_ends h
  | step => exact transactRun_ends h
  | run budget => exact transactRun_ends h
  | terminate =>
    cases h
    exact .same _
  | readStatus =>
    cases h
    exact .same _
  | readReg i =>
    simp only [transact, transactReadReg] at h
    split at h
    · cases h
      exact .fails _ _
    · cases h
      exact .same _
  | writeReg i v => exact transactWriteReg_ends h
  | readMem b =>
    simp only [transact, transactReadMem] at h
    split at h
    · cases h
      exact .fails _ _
    · cases h
      exact .same _
  | writeMem b v => exact transactWriteMem_ends h

end Sys2Proof.Machine
end

