-- ==== Sys2Proof/Tests/Slice0.lean ====
section
/-! SUPPORT. Tests of the model: the check of WellFormed, words written out from the spec's encodings, single steps with
results from 95_test_vectors.md, and a witness for the hypotheses of every obligation that has any. -/

namespace Sys2Proof.Tests

open Sys2Proof Sys2Proof.Machine

/-! ### WellFormed: an ill-formed term for each register operand of each form -/

theorem test_wellFormed_addReg : ¬ (Instr.addReg 8 0 0).WellFormed ∧ ¬ (Instr.addReg 0 8 0).WellFormed ∧
    ¬ (Instr.addReg 0 0 8).WellFormed ∧ (Instr.addReg 7 7 7).WellFormed := by decide
theorem test_wellFormed_addImm : ¬ (Instr.addImm 8 0 0#5).WellFormed ∧ ¬ (Instr.addImm 0 8 0#5).WellFormed ∧
    (Instr.addImm 7 7 31#5).WellFormed := by decide
theorem test_wellFormed_andReg : ¬ (Instr.andReg 8 0 0).WellFormed ∧ ¬ (Instr.andReg 0 8 0).WellFormed ∧
    ¬ (Instr.andReg 0 0 8).WellFormed ∧ (Instr.andReg 7 7 7).WellFormed := by decide
theorem test_wellFormed_andImm : ¬ (Instr.andImm 8 0 0#5).WellFormed ∧ ¬ (Instr.andImm 0 8 0#5).WellFormed ∧
    (Instr.andImm 7 7 31#5).WellFormed := by decide
theorem test_wellFormed_not : ¬ (Instr.not 8 0).WellFormed ∧ ¬ (Instr.not 0 8).WellFormed ∧
    (Instr.not 7 7).WellFormed := by decide
theorem test_wellFormed_ldi : ¬ (Instr.ldi 8 0#9).WellFormed ∧ (Instr.ldi 7 511#9).WellFormed := by decide

/-! ### Decoding: words written out bit by bit from 30_encoding.md R63 to R69 -/

/-- R63, opcode 0001, DR 110, SR1 101, mode 0, ignored 11, SR2 011. -/
theorem test_decode_addReg : decode 0b0001110101011011#16 = .instr (.addReg 6 5 3) := by decide
/-- R64, opcode 0001, DR 001, SR1 111, mode 1, imm5 10000. -/
theorem test_decode_addImm : decode 0b0001001111110000#16 = .instr (.addImm 1 7 0b10000#5) := by decide
/-- R63, opcode 0101, DR 100, SR1 010, mode 0, ignored 00, SR2 111. -/
theorem test_decode_andReg : decode 0b0101100010000111#16 = .instr (.andReg 4 2 7) := by decide
/-- R64, opcode 0101, DR 011, SR1 110, mode 1, imm5 01111. -/
theorem test_decode_andImm : decode 0b0101011110101111#16 = .instr (.andImm 3 6 0b01111#5) := by decide
/-- R66, opcode 1001, DR 010, SR1 100, ignored 010101. -/
theorem test_decode_not : decode 0b1001010100010101#16 = .instr (.not 2 4) := by decide
/-- R68, opcode 0000, nzp 101, PCoffset9 100000001. -/
theorem test_decode_br : decode 0b0000101100000001#16 = .instr (.br 0b101#3 0b100000001#9) := by decide
/-- R69, opcode 1010, DR 011, PCoffset9 011111110. -/
theorem test_decode_ldi : decode 0b1010011011111110#16 = .instr (.ldi 3 0b011111110#9) := by decide
/-- R67, R75: LC-3's HALT and RET words are invalid here. -/
theorem test_decode_invalid : decode 0xF025#16 = .invalid 0xF#4 ∧ decode 0xC1C0#16 = .invalid 0xC#4 := by decide

/-- 95_test_vectors.md part 3: the words of `AND R1, R1, #0`, `ADD R1, R1, #-1`, `BRp #-3`, `NOT R2, R1`, `LDI R0, #8`. -/
theorem test_encode_programs :
    encode (.andImm 1 1 0#5) = 0x5260#16 ∧ encode (.addImm 1 1 0b11111#5) = 0x127F#16 ∧
      encode (.br 0b001#3 0b111111101#9) = 0x03FD#16 ∧ encode (.not 2 1) = 0x947F#16 ∧
      encode (.ldi 0 8#9) = 0xA008#16 ∧ encode (.addReg 2 0 1) = 0x1401#16 ∧
      encode (.andReg 5 3 4) = 0x5AC4#16 := by decide

/-- The host's numbering of a table row's bits. -/
theorem test_decodeTableWord :
    decodeTableWord 16 0x1020 = some (.addImm 0 0 0#5) ∧ decodeTableWord 16 0x9000 = some (.not 0 0) ∧
      decodeTableWord 16 0xD000 = none := by decide

/-! ### Single steps -/

/-- A field of the next state; none where there is no next state. -/
def after {α : Type} (o : Host.Outcome State Fault Refusal) (f : State → α) : Option α :=
  match o with
  | .next t => some (f t)
  | .fault _ => none
  | .refused _ => none

/-- The next state. -/
def stepped (s : State) : State := (after (step s) id).getD s

/-- The state after reset with word `w` to be fetched and R0, R1 given. -/
def with01 (w : Nat) (r0 r1 : Word) : State := ((State.reset.withFetchWord 16 w).setGpr 0 r0).setGpr 1 r1

/-- What most vectors name. -/
def seen (i : Fin 8) (t : State) : Word × Cond × Word := (t.gpr i, t.cond, t.pc)

/-- 95 §2.3: signed overflow, positive to negative. -/
theorem test_add_overflow :
    after (step (with01 0x1401 0x7FFF#16 0x0001#16)) (seen 2) = some (0x8000#16, .n, 0x3001#16) := by decide
/-- 95 §2.3: DR and both sources the same register, bits 4..3 set. -/
theorem test_add_alias : after (step (with01 0x1018 0x0003#16 0#16)) (seen 0) = some (0x0006#16, .p, 0x3001#16) := by
  decide
/-- 95 §2.4: the smallest immediate gives zero. -/
theorem test_addImm_zero : after (step (with01 0x1430 0x0010#16 0#16)) (seen 2) = some (0x0000#16, .z, 0x3001#16) := by
  decide
/-- Source scenario S2. -/
theorem test_addImm_negative : after (step (with01 0x143E 0x0001#16 0#16)) (seen 2) = some (0xFFFF#16, .n, 0x3001#16) := by
  decide
/-- 95 §2.5. -/
theorem test_and : after (step (with01 0x5401 0xF0F0#16 0x0FF0#16)) (seen 2) = some (0x00F0#16, .p, 0x3001#16) := by
  decide
/-- 95 §2.6: the sign bit kept by a sign-extended mask. -/
theorem test_andImm_sign : after (step (with01 0x5430 0x8000#16 0#16)) (seen 2) = some (0x8000#16, .n, 0x3001#16) := by
  decide
/-- 95 §2.6: the low nibble. -/
theorem test_andImm_low : after (step (with01 0x542F 0x00FF#16 0#16)) (seen 2) = some (0x000F#16, .p, 0x3001#16) := by
  decide
/-- 95 §2.7: all 16 bits complemented. -/
theorem test_not : after (step (with01 0x943F 0x00FF#16 0#16)) (seen 2) = some (0xFF00#16, .n, 0x3001#16) := by decide
/-- 95 §2.7: bits 5..0 ignored. -/
theorem test_not_ignored : after (step (with01 0x9000 0x0003#16 0#16)) (seen 0) = some (0xFFFC#16, .n, 0x3001#16) := by
  decide

/-- A state about to run `w` at `a` with `cond`. -/
def branchAt (a : Word) (w : Nat) (c : Cond) : State := ((State.reset.setPc a).withFetchWord 16 w).setCond c

/-- 95 §2.8: `BRnz #5` in each state of `cond`; the equality-to-1 test would take none of the first two. -/
theorem test_br_mask :
    after (step (branchAt 0x3000#16 0x0C05 .n)) State.pc = some 0x3006#16 ∧
      after (step (branchAt 0x3000#16 0x0C05 .z)) State.pc = some 0x3006#16 ∧
      after (step (branchAt 0x3000#16 0x0C05 .p)) State.pc = some 0x3001#16 := by decide
/-- 95 §2.8: the target wraps past the top; the largest backward offset. -/
theorem test_br_wrap :
    after (step (branchAt 0xFFFF#16 0x0E01 .z)) State.pc = some 0x0001#16 ∧
      after (step (branchAt 0x3000#16 0x0F00 .z)) State.pc = some 0x2F01#16 := by decide

/-- `s` with word `v` at address `a`. -/
def poke (s : State) (a v : Word) : State := s.setMem (s.mem.writeWord a v)

/-- 95 §2.9: the pointer's address wraps to 0xFFFF. -/
theorem test_ldi_wrap :
    after (step (poke (poke (branchAt 0x0000#16 0xA3FE .p) 0xFFFF#16 0x5000#16) 0x4000#16 0x1234#16)) (seen 1) =
      some (0x0000#16, .z, 0x0001#16) := by decide
/-- 95 §2.9: the instruction word is its own pointer. -/
theorem test_ldi_self :
    after (step (poke (branchAt 0x3000#16 0xA3FF .z) 0xA3FF#16 0x1234#16)) (seen 1) =
      some (0x1234#16, .p, 0x3001#16) := by decide

/-- 95 §2.10: the fetch wraps `pc`. -/
theorem test_fetch_wrap : after (step ((branchAt 0xFFFF#16 0x1401 .z).setGpr 0 3#16)) (seen 2) =
    some (0x0003#16, .p, 0x0000#16) := by decide

/-- A core about to fetch source scenario S6's invalid word. -/
def badWord : State := State.reset.withFetchWord 16 0xFFFF

/-- Source scenario S6, and 95 §2.11: the fault record, and a following step changes nothing. -/
theorem test_invalid :
    after (step badWord) (fun t => (t.runState, t.fault, t.pc)) =
        some (.faulted, some (.invalidOpcode 0xF#4 0xFFFF#16 0x3000#16), 0x3001#16) ∧
      after (step (stepped badWord)) id = some (stepped badWord) := by decide

/-- 60_exceptions.md R120: the numeric codes. -/
theorem test_codes : faultCode none = 0 ∧ faultCode (some (.outOfBounds 65536)) = 1 ∧
    faultCode (some (.invalidRegister 10)) = 2 ∧ faultCode (stepped badWord).fault = 3 ∧
    faultCode (some (.internalFlagIndex 8)) = 4 := by decide

/-! ### Host transactions (95 §2.12) -/

/-- The core and the reply of a transaction. -/
def told (o : HostOutcome) : Option (State × HostReply) :=
  match o with
  | .next (q, r) => some (q.core, r)
  | .fault _ => none
  | .refused _ => none

/-- A fresh session over `s`. -/
def session (s : State) : Session := ⟨s, .fresh⟩

/-- 95 §2.12: ReadMem(65536) and ReadMem(-1). -/
theorem test_readMem_bounds :
    (told (transact .named (.readMem 65536) (session .reset))).map (fun x => (x.1.fault, x.2)) =
        some (some (.outOfBounds 65536), .failed) ∧
      (told (transact .named (.readMem (-1)) (session .reset))).map (fun x => (x.1.runState, x.1.fault)) =
        some (.faulted, some (.outOfBounds (-1))) := by decide
/-- 95 §2.12: ReadReg(10), ReadReg(9). -/
theorem test_readReg :
    (told (transact .named (.readReg 10) (session .reset))).map (fun x => x.1.fault) =
        some (some (.invalidRegister 10)) ∧
      (told (transact .named (.readReg 9) (session (State.reset.setCond .n)))).map (fun x => x.2) =
        some (.value 0b100#16) := by decide
/-- 95 §2.12: WriteReg(9, 0b001) and the refused WriteReg(9, 0b011). -/
theorem test_writeReg_cond :
    (told (transact .named (.writeReg 9 0b001) (session .reset))).map (fun x => x.1.cond) = some .p ∧
      transact .named (.writeReg 9 0b011) (session .reset) = .refused (.hostCondNotOneFlag 0b011#16) :=
  ⟨by decide, rfl⟩
/-- 95 §2.12: LoadImage of one word. -/
theorem test_loadImage :
    (told (transact .named (.loadImage [0xF025]) (session .reset))).map
        (fun x => (x.1.mem.readWord 0x3000#16, x.1.pc, x.1.runState)) = some (0xF025#16, 0x3000#16, .running) := by
  decide

/-! ### Witnesses: states and operands that meet each obligation's hypotheses -/

theorem witness_AddRegisterForm : 0x1FDF#16 &&& 0xF020#16 = 0x1000#16 := by decide
theorem witness_AddImmediateForm : 0x1FFF#16 &&& 0xF020#16 = 0x1020#16 := by decide
theorem witness_AndRegisterForm : opcode 0x5FDF#16 = opcodeAnd ∧ isImmediateMode 0x5FDF#16 = false := by decide
theorem witness_AndImmediateForm : opcode 0x5FFF#16 = opcodeAnd ∧ isImmediateMode 0x5FFF#16 = true := by decide
theorem witness_NotForm : opcode 0x9FC0#16 = opcodeNot := by decide
theorem witness_BranchForm : opcode 0x0FFF#16 = opcodeBr ∧ 0b111#3 &&& condBits .n ≠ 0#3 ∧
    0b011#3 &&& condBits .n = 0#3 := by decide
theorem witness_LoadIndirectForm : opcode 0xAFFF#16 = opcodeLdi ∧
    ((0xFFFF#16).toNat : Int) = ((State.reset.setPc 0x0001#16).pc.toNat + (0b111111110#9).toInt) % 65536 := by decide
theorem witness_DecodeEncodeAgree : (Instr.addReg 7 0 7).WellFormed := by decide
theorem witness_EncodeDecodeKeepsNamedBits : decode 0x1FDF#16 = .instr (.addReg 7 7 7) := by decide
theorem witness_DecodedIsWellFormed : decode 0x9FC0#16 = .instr (.not 7 7) := by decide
theorem witness_UnnamedBitsAreIgnored :
    ((0x1000#16 &&& 0xF020#16 = 0x1000#16 ∨ 0x1000#16 &&& 0xF020#16 = 0x5000#16) ∧
        0x1000#16 &&& 0xFFE7#16 = 0x1018#16 &&& 0xFFE7#16) ∧
      0x9000#16 &&& 0xF000#16 = 0x9000#16 ∧ 0x9000#16 &&& 0xFFC0#16 = 0x903F#16 &&& 0xFFC0#16 := by decide
theorem witness_InvalidOpcodesFault : badWord.runState = .running ∧
    (0xF#4).toNat = (fetched badWord).toNat / 4096 ∧ 0xF#4 ∈ invalidOpcodes := by decide
theorem witness_SignExtension : (15#5).toNat < 16 ∧ 16 ≤ (16#5).toNat ∧ (255#9).toNat < 256 ∧ 256 ≤ (256#9).toNat := by
  decide
/-- For each of the three classes of a register's value the one `f` that meets the three hypotheses, and index 8. -/
theorem witness_SetccRule : (∀ v ∈ [(0x0000#16, Cond.z), (0x8000#16, Cond.n), (0x7FFF#16, Cond.p)],
    let s := State.reset.setGpr 3 v.1
    (s.gpr 3 = 0x0000#16 → v.2 = .z) ∧ (s.gpr 3 ≠ 0x0000#16 → (s.gpr 3).getLsbD 15 = true → v.2 = .n) ∧
      (s.gpr 3 ≠ 0x0000#16 → (s.gpr 3).getLsbD 15 = false → v.2 = .p)) ∧ 8 ≤ 8 := by decide
/-- A word that writes R2, a BR and an invalid word. -/
theorem witness_CondIsWrittenOnlyWithARegister :
    ((with01 0x1401 1#16 2#16).runState = .running ∧
        step (with01 0x1401 1#16 2#16) = .next (stepped (with01 0x1401 1#16 2#16)) ∧
        opcode (fetched (with01 0x1401 1#16 2#16)) ∈ [opcodeAdd, opcodeAnd, opcodeNot, opcodeLdi] ∧
        (2 : Fin 8).val = (fetched (with01 0x1401 1#16 2#16)).toNat / 512 % 8) ∧
      (badWord.runState = .running ∧ step badWord = .next (stepped badWord) ∧
        opcode (fetched badWord) ∉ [opcodeAdd, opcodeAnd, opcodeNot, opcodeLdi]) ∧
      opcode (fetched (branchAt 0x3000#16 0x0E05 .z)) ∉ [opcodeAdd, opcodeAnd, opcodeNot, opcodeLdi] :=
  ⟨⟨by decide, rfl, by decide, by decide⟩, ⟨by decide, rfl, by decide⟩, by decide⟩
theorem witness_StepRunsTheDecodedInstruction :
    (stepped badWord).runState ≠ .running ∧
      (State.reset.withFetchWord 16 0x0E05).runState = .running ∧
      decode (fetched (State.reset.withFetchWord 16 0x0E05)) = .instr (.br 7#3 5#9) ∧
      badWord.runState = .running ∧ decode (fetched badWord) = .invalid 0xF#4 := by decide
theorem witness_FaultsArePrecise : badWord.runState = .running ∧ step badWord = .next (stepped badWord) ∧
    (stepped badWord).runState ≠ .running := ⟨by decide, rfl, by decide⟩
/-- A FAULTED core, and a HALTED one, which no run reaches. -/
theorem witness_TerminalStatesStay : (stepped badWord).runState ≠ .running ∧
    ({ State.reset with halted := true, runState := .halted } : State).runState ≠ .running := by decide
theorem witness_StepKeepsTheInvariant : badWord.Inv ∧ step badWord = .next (stepped badWord) := ⟨by decide, rfl⟩
/-- An LDI whose pointer, at 0x3002, is 0x4000; the other memory differs at 0x5000. -/
theorem witness_MemoryReachedAsListed :
    let s := poke (State.reset.withFetchWord 16 0xA201) 0x3002#16 0x4000#16
    let m := (poke s 0x5000#16 0x7777#16).mem
    step s = .next (stepped s) ∧ m ≠ s.mem ∧ m.readWord s.pc = fetched s ∧
      opcode (fetched s) = opcodeLdi ∧
      ((0x3002#16).toNat : Int) = (s.pc.toNat + 1 + (BitVec.ofNat 9 (fetched s).toNat).toInt) % 65536 ∧
      m.readWord 0x3002#16 = s.mem.readWord 0x3002#16 ∧
      m.readWord (s.mem.readWord 0x3002#16) = s.mem.readWord (s.mem.readWord 0x3002#16) :=
  ⟨rfl, by decide, by decide, by decide, by decide, by decide, by decide⟩
theorem witness_ControlTransferOnlyByBranch :
    (branchAt 0xFFFF#16 0x0E01 .z).runState = .running ∧
      step (branchAt 0xFFFF#16 0x0E01 .z) = .next (stepped (branchAt 0xFFFF#16 0x0E01 .z)) := ⟨by decide, rfl⟩
theorem witness_AtMostOneRegisterChanges :
    step (with01 0x1401 1#16 2#16) = .next (stepped (with01 0x1401 1#16 2#16)) ∧
      (stepped (with01 0x1401 1#16 2#16)).gpr 2 ≠ (with01 0x1401 1#16 2#16).gpr 2 := ⟨rfl, by decide⟩
theorem witness_LoadIndirectStep :
    let s := branchAt 0x0000#16 0xA3FE .p
    s.runState = .running ∧ opcode (fetched s) = opcodeLdi ∧
      ((0xFFFF#16).toNat : Int) = (s.pc.toNat + 1 + (BitVec.ofNat 9 (fetched s).toNat).toInt) % 65536 ∧
      (1 : Fin 8).val = (fetched s).toNat / 512 % 8 := by decide
/-- Untaken, and taken with offset -1. -/
theorem witness_BranchStep :
    let s := branchAt 0xFFFF#16 0x09FF .n
    s.runState = .running ∧ fetched s = encode (.br 0b100#3 0b111111111#9) ∧ 0b100#3 &&& condBits s.cond ≠ 0#3 ∧
      0b100#3 &&& condBits (s.setCond .z).cond = 0#3 := by decide
/-- Index 8 as DR, as SR1 behind a good DR, and as SR2 behind a good DR and SR1. -/
theorem witness_InvalidRegisterOperands : State.reset.runState = .running ∧ 8 ≤ 8 ∧
    (8 = 8) ∧ (8 = 7 ∨ 7 < 8 ∧ 8 = 8) ∧ (8 = 7 ∨ 7 < 8 ∧ 8 = 7 ∨ 7 < 8 ∧ 7 < 8 ∧ 8 = 8) := by decide
theorem witness_PlacedWordIsRun : State.reset.mem.wf ∧ decodeTableWord 16 0xAFFF = some (.ldi 7 511#9) := by decide
theorem witness_AndImmediateClears : (15#5).toNat < 16 ∧ (0#5).toNat < 16 := by decide
theorem witness_CanonicalMemoriesAreEqual :
    Memory.wf [(0, 1#8), (131071, 255#8)] ∧
      ∀ a : Word, Memory.readWord [(0, 1#8), (131071, 255#8)] a = Memory.readWord [(0, 1#8), (131071, 255#8)] a :=
  ⟨by decide, fun _ => rfl⟩
theorem witness_BoundsCheckedAccess : State.reset.mem.wf ∧ ((0 : Int) ≤ 0 ∧ (0 : Int) < 65536) ∧
    ((0 : Int) ≤ 65535 ∧ (65535 : Int) < 65536) ∧ ((-1 : Int) < 0 ∨ (65536 : Int) ≤ -1) ∧
    ((65536 : Int) < 0 ∨ (65536 : Int) ≤ 65536) := by decide
/-- The longest image that fits, and one word more; the last word that fits; the addresses on both sides. -/
theorem witness_LoadImageRule : (session .reset).phase = .fresh ∧ (session .reset).core.runState = .running ∧
    (session (stepped badWord)).phase = .fresh ∧ (session (stepped badWord)).core.runState ≠ .running ∧
    (session (stepped badWord)).core.mem.wf ∧ (session .reset).core.mem.wf ∧ (List.replicate 53248 (1#16 : Word)).length ≤ 0xD000 ∧
    0xD000 < (List.replicate 53249 (1#16 : Word)).length ∧
    (53247 < (List.replicate 53248 (1#16 : Word)).length ∧ 53247 < 0xD000) ∧
    ((0x2FFF#16).toNat < 0x3000 ∨ 0x3000 + [1#16].length ≤ (0x2FFF#16).toNat) ∧
    ((0x3001#16).toNat < 0x3000 ∨ 0x3000 + [1#16].length ≤ (0x3001#16).toNat) := by
  simp only [List.length_replicate]
  decide
theorem witness_LoadRefusals : (⟨State.reset, .started⟩ : Session).phase ≠ .fresh ∧
    (⟨State.reset, .terminated⟩ : Session).phase ≠ .fresh ∧ (session .reset).phase = .fresh ∧
    (65536 : Int) ∈ [0, 65536, -1] ∧ ((65536 : Int) < 0 ∨ (65536 : Int) ≤ 65536) ∧
    ((-1 : Int) < 0 ∨ (65536 : Int) ≤ -1) := by decide
/-- A phase that allows steps and one that does not, and what a Step makes of each. -/
theorem witness_SteppingEndsLoading : (session badWord).phase ≠ .terminated ∧
    (⟨badWord, .terminated⟩ : Session).phase = .terminated ∧
    transact .named .step (session badWord) = .next (⟨stepped badWord, .started⟩, .done) ∧
    transact .named .step ⟨badWord, .terminated⟩ = .next (⟨badWord, .terminated⟩, .done) :=
  ⟨by decide, by decide, rfl, rfl⟩
theorem witness_RunIsRepeatedStep : (session badWord).phase ≠ .terminated ∧
    (⟨badWord, .started⟩ : Session).phase ≠ .terminated ∧ Host.Core.run core 2 badWord = .next (stepped badWord) ∧
    transact .named (.run 2) (session badWord) = .next (⟨stepped badWord, .started⟩, .done) :=
  ⟨by decide, by decide, rfl, rfl⟩
theorem witness_ReadRegisterSlots : ((-1 : Int) < 0 ∨ (10 : Int) ≤ -1) ∧ ((10 : Int) < 0 ∨ (10 : Int) ≤ 10) ∧
    (session .reset).core.runState = .running ∧
    (session (stepped badWord)).core.runState ≠ .running := by decide
theorem witness_WriteRegisterSlots : 4#16 = (condBits .n).setWidth 16 ∧
    (3#16 ≠ (condBits .n).setWidth 16 ∧ 3#16 ≠ (condBits .z).setWidth 16 ∧ 3#16 ≠ (condBits .p).setWidth 16) ∧
    ((-1 : Int) < 0 ∨ (10 : Int) ≤ -1) ∧ ((10 : Int) < 0 ∨ (10 : Int) ≤ 10) ∧
    ((65536 : Int) < 0 ∨ (65536 : Int) ≤ 65536) ∧ (session .reset).core.runState = .running ∧
    (session (stepped badWord)).core.runState ≠ .running := by decide
theorem witness_HostMemoryAccess : ((-1 : Int) < 0 ∨ (65536 : Int) ≤ -1) ∧
    ((65536 : Int) < 0 ∨ (65536 : Int) ≤ 65536) ∧ (session .reset).core.runState = .running ∧
    (session (stepped badWord)).core.runState ≠ .running := by decide
theorem witness_TerminateFreezes : HostRequest.step = .step ∨ HostRequest.step = .run 0 := by decide
/-- A FAULTED core, stepped, and asked for a register that does not exist. -/
theorem witness_FaultRecordIsKept : (stepped badWord).runState = .faulted ∧
    step (stepped badWord) = .next (stepped badWord) ∧ (session (stepped badWord)).core.runState = .faulted ∧
    HostRequest.readReg 10 ≠ .reset ∧
    transact .named (.readReg 10) (session (stepped badWord)) = .next (session (stepped badWord), .failed) :=
  ⟨by decide, rfl, by decide, by decide, rfl⟩
theorem witness_NothingSetsHalted : badWord.halted = false ∧ step badWord = .next (stepped badWord) ∧
    transact .named .terminate (session badWord) = .next (⟨badWord, .terminated⟩, .done) := ⟨by decide, rfl, rfl⟩
theorem witness_TransactionsKeepTheInvariant : (session badWord).core.Inv ∧
    transact .named .step (session badWord) = .next (⟨stepped badWord, .started⟩, .done) := ⟨by decide, rfl⟩
theorem witness_RunEndIsUnique : Host.Core.run core 1 badWord = .next (stepped badWord) ∧
    (stepped badWord).runState ≠ .running ∧ Host.Core.run core 2 badWord = .next (stepped badWord) :=
  ⟨rfl, by decide, rfl⟩
theorem witness_RunEndsOnlyAtAnInvalidWord : badWord.runState = .running ∧ RunEnds badWord (stepped badWord) :=
  ⟨by decide, 1, rfl, by decide⟩

end Sys2Proof.Tests
end

section
/-! PROOFS. The registers, the condition register and the sequencer (10_state.md): what every step and every host
transaction keeps, which register a step writes, and what validation, `setcc`, the branch test, reset and ReadReg answer. -/

namespace Sys2Proof.Machine

/-! ### What every step and every transaction keeps -/

/-- `P` survives each update of the state that a step or a host transaction is made of. -/
structure KeptByUpdates (P : State → Prop) : Prop where
  setGpr : ∀ s i v, P s → P (s.setGpr i v)
  setPc : ∀ s v, P s → P (s.setPc v)
  setCond : ∀ s f, P s → P (s.setCond f)
  setMem : ∀ (s : State) (m : Memory), (s.mem.wf → m.wf) → P s → P (s.setMem m)
  raise : ∀ s e, P s → P (s.raise e)

section
variable {P : State → Prop} (hP : KeptByUpdates P)
include hP

theorem KeptByUpdates.of_execEnds {i : Instr} {s t : State} (h : ExecEnds s i t) (hs : P s) : P t := by
  cases h with
  | writes d v => exact hP.setCond _ _ (hP.setGpr _ _ _ hs)
  | branches mask off9 => exact hP.setPc _ _ hs
  | falls mask off9 => exact hs
  | raises k => exact hP.raise _ _ hs

theorem KeptByUpdates.of_step {s t : State} (h : step s = .next t) (hs : P s) : P t := by
  rcases step_cases s with ⟨-, e⟩ | ⟨-, ⟨i, u, -, -, e, hu⟩ | ⟨op, -, e⟩⟩ <;> cases e.symm.trans h
  · exact hs
  · exact hP.of_execEnds hu (hP.setPc _ _ hs)
  · exact hP.raise _ _ (hP.setPc _ _ hs)

theorem KeptByUpdates.of_runFor {k : Nat} {s t : State} (h : runFor k s = .next t) (hs : P s) : P t := by
  induction k generalizing s with
  | zero =>
    cases h
    exact hs
  | succ k ih =>
    rw [runFor] at h
    split at h
    · split at h
      · exact ih h (hP.of_step ‹_› hs)
      · cases h
      · cases h
    · cases h
      exact hs
    · cases h
      exact hs

theorem KeptByUpdates.of_transactEnds {s t : State} (h : TransactEnds s t) (hs : P s) : P t := by
  cases h with
  | memory m hm => exact hP.setMem _ _ hm hs
  | raises m e hm => exact hP.raise _ _ (hP.setMem _ _ hm hs)
  | writesGpr i v => exact hP.setGpr _ _ _ hs
  | writesPc v => exact hP.setPc _ _ hs
  | writesCond f => exact hP.setCond _ _ hs
  | runs k _ h => exact hP.of_runFor h hs

/-- A transaction keeps `P` if the reset state, at whatever the OPEN parameters are, has it. -/
theorem KeptByUpdates.of_transact {p : ResetParams} {r : HostRequest} {q q' : Session} {a : HostReply}
    (hreset : P (State.resetWith p)) (h : transact p r q = .next (q', a)) (hq : P q.core) : P q'.core := by
  by_cases hr : r = .reset
  · subst hr
    cases h
    exact hreset
  · exact hP.of_transactEnds (transact_ends hr h) hq

end

/-! ### The invariant and the halted flag -/

/-- Raising keeps the invariant: only a RUNNING core, whose `halted` is clear, enters FAULTED (60_exceptions.md R126). -/
theorem State.raise_inv {s : State} (e : FatalError) (h : s.Inv) : (s.raise e).Inv := by
  by_cases hr : s.runState = .running
  · obtain ⟨hm, hh, -⟩ := h
    have hclear : s.halted = false := by simpa [hr] using hh
    rw [State.raise_of_running s e hr]
    exact ⟨hm, by simp [hclear], by simp⟩
  · rwa [State.raise_of_not_running s e hr]

theorem inv_keptByUpdates : KeptByUpdates State.Inv where
  setGpr _ _ _ h := h
  setPc _ _ h := h
  setCond _ _ h := h
  setMem _ _ hm h := ⟨hm h.1, h.2⟩
  raise _ e h := State.raise_inv e h

theorem halted_clear_keptByUpdates : KeptByUpdates (fun s => s.halted = false) where
  setGpr _ _ _ h := h
  setPc _ _ h := h
  setCond _ _ h := h
  setMem _ _ _ h := h
  raise s e h := (State.raise_halted s e).trans h

/-- A RUNNING core with `halted` clear and no record meets the invariant if its memory is in canonical form. -/
theorem State.inv_of_running {s : State} (hm : s.mem.wf) (hr : s.runState = .running) (hh : s.halted = false)
    (hf : s.fault = none) : s.Inv :=
  ⟨hm, by simp [hr, hh], by simp [hr, hf]⟩

/-- Settles O23: the step is made of updates that each keep the invariant. -/
theorem stepKeepsTheInvariant : Obligations.StepKeepsTheInvariant :=
  fun _ _ hs h => inv_keptByUpdates.of_step h hs

/-- Settles O24: both are RUNNING with a canonical memory. -/
theorem resetMeetsTheInvariant : Obligations.ResetMeetsTheInvariant :=
  ⟨State.inv_of_running State.reset_mem_wf rfl rfl rfl,
    fun p => State.inv_of_running (State.resetWith_mem_wf p) rfl rfl rfl⟩

/-- Settles O47: no update of the state writes `halted`, and Reset clears it. -/
theorem nothingSetsHalted : Obligations.NothingSetsHalted :=
  ⟨fun _ _ hs h => halted_clear_keptByUpdates.of_step h hs,
    fun p _ _ _ _ hq h => halted_clear_keptByUpdates.of_transact (State.resetWith_halted p) h hq⟩

/-- Settles O36, field by field. -/
theorem resetLeaves : Obligations.ResetLeaves := fun p =>
  ⟨State.resetWith_pc p, State.resetWith_halted p, State.resetWith_runState p, State.resetWith_fault p,
    State.resetWith_cond p, State.resetWith_gpr p, Memory.readWord_ofFn p.memInit⟩

/-! ### Terminal states -/

/-- Only a RUNNING core steps (40_cycle.md R80). -/
theorem step_of_not_running {s : State} (h : s.runState ≠ .running) : step s = .next s := by
  rcases step_cases s with ⟨-, e⟩ | ⟨hr, -⟩
  · exact e
  · exact absurd hr h

/-- Settles O22, by induction on the number of steps. -/
theorem terminalStatesStay : Obligations.TerminalStatesStay := by
  intro k s hs
  induction k with
  | zero => exact run_zero s
  | succ k ih => exact (run_succ (step_of_not_running hs)).trans ih

/-! ### The register a word writes -/

/-- The opcodes of the instructions that write a register and `cond` (10_state.md R28). -/
abbrev writingOpcodes : List (BitVec 4) := [opcodeAdd, opcodeAnd, opcodeNot, opcodeLdi]

/-- A 3-bit field names one of R0..R7 (10_state.md R21). -/
theorem isGprIndex_toNat (b : BitVec 3) : isGprIndex b.toNat = true := decide_eq_true b.isLt

/-- Settles O10: every register index the decoder answers is a 3-bit field of the word. -/
theorem decodedIsWellFormed : Obligations.DecodedIsWellFormed := by
  intro w i h
  rcases decode_cases w with ⟨-, -, e⟩ | ⟨-, -, e⟩ | ⟨-, -, e⟩ | ⟨-, -, e⟩ | ⟨-, e⟩ | ⟨-, e⟩ | ⟨-, e⟩ |
    ⟨-, -, -, -, -, e⟩ <;> cases e.symm.trans h <;> simp [Instr.WellFormed, Instr.wellFormed, isGprIndex_toNat]

/-- A word with a writing opcode decodes to an instruction that writes the register the word names as DR, and its
flag. -/
theorem decode_of_writing {w : Word} (hw : opcode w ∈ writingOpcodes) :
    ∃ i, decode w = .instr i ∧
      ∀ s, ∃ v, exec i s = .next ((s.setGpr (destReg w).toFin v).setCond (flagOf v)) := by
  have settled {s t : State} {r : Except FatalError State} (e : r = .ok t) : settle s r = .next t := by
    rw [e, settle_ok]
  rcases decode_cases w with ⟨-, -, e⟩ | ⟨-, -, e⟩ | ⟨-, -, e⟩ | ⟨-, -, e⟩ | ⟨-, e⟩ | ⟨ho, -⟩ | ⟨-, e⟩ |
    ⟨hadd, hand, hnot, -, hldi, -⟩
  · exact ⟨_, e, fun s => ⟨_, settled (aluOne_val _ (destReg w).toFin (srcReg1 w).toFin s)⟩⟩
  · exact ⟨_, e, fun s => ⟨_, settled (aluReg_val _ (destReg w).toFin (srcReg1 w).toFin (srcReg2 w).toFin s)⟩⟩
  · exact ⟨_, e, fun s => ⟨_, settled (aluOne_val _ (destReg w).toFin (srcReg1 w).toFin s)⟩⟩
  · exact ⟨_, e, fun s => ⟨_, settled (aluReg_val _ (destReg w).toFin (srcReg1 w).toFin (srcReg2 w).toFin s)⟩⟩
  · exact ⟨_, e, fun s => ⟨_, settled (aluOne_val _ (destReg w).toFin (srcReg1 w).toFin s)⟩⟩
  · rw [ho] at hw
    exact absurd hw (by decide)
  · exact ⟨_, e, fun s => ⟨_, settled (loadIndirect_val (destReg w).toFin (pcOffset9 w) s)⟩⟩
  · simp [hadd, hand, hnot, hldi] at hw

/-- A decoded instruction with any other opcode is a BR. -/
theorem decoded_br_of_not_writing {w : Word} {i : Instr} (h : decode w = .instr i)
    (hw : opcode w ∉ writingOpcodes) : i = .br (branchCondMask w) (pcOffset9 w) := by
  simp only [List.mem_cons, List.not_mem_nil, or_false, not_or] at hw
  obtain ⟨hadd, hand, hnot, hldi⟩ := hw
  rcases decode_cases w with ⟨ho, -⟩ | ⟨ho, -⟩ | ⟨ho, -⟩ | ⟨ho, -⟩ | ⟨ho, -⟩ | ⟨-, e⟩ | ⟨ho, -⟩ |
    ⟨-, -, -, -, -, e⟩
  · exact absurd ho hadd
  · exact absurd ho hadd
  · exact absurd ho hand
  · exact absurd ho hand
  · exact absurd ho hnot
  · cases e.symm.trans h
    rfl
  · exact absurd ho hldi
  · cases e.symm.trans h

/-- A step of a RUNNING core on a word with a writing opcode: DR and its flag are written, after the fetch's `pc`. -/
theorem step_writes {s : State} (hr : s.runState = .running) (hw : opcode (fetched s) ∈ writingOpcodes) :
    ∃ v, step s = .next (((s.setPc (nextPc s.pc)).setGpr (destReg (fetched s)).toFin v).setCond (flagOf v)) := by
  obtain ⟨i, hi, hwrites⟩ := decode_of_writing hw
  rcases step_cases s with ⟨hn, -⟩ | ⟨-, ⟨j, t, hj, e, -⟩ | ⟨op, hd, -⟩⟩
  · exact absurd hr hn
  · cases hi.symm.trans hj
    rw [e]
    exact hwrites _
  · cases hi.symm.trans hd

/-- A step on any other word, a BR or an invalid one, leaves every register and `cond` alone. -/
theorem step_of_not_writing {s t : State} (h : step s = .next t) (hw : opcode (fetched s) ∉ writingOpcodes) :
    t.regs = s.regs ∧ t.cond = s.cond := by
  rcases step_cases s with ⟨-, e⟩ | ⟨-, ⟨i, u, hd, -, e, hu⟩ | ⟨op, -, e⟩⟩ <;> cases e.symm.trans h
  · exact ⟨rfl, rfl⟩
  · cases hu with
    | writes d v hb => exact absurd (decoded_br_of_not_writing hd hw) (hb _ _)
    | branches mask off9 => exact ⟨rfl, rfl⟩
    | falls mask off9 => exact ⟨rfl, rfl⟩
    | raises k => simp
  · simp

/-- Settles O18: a writing word sets `cond` to the flag of what it wrote, and no other word writes it. -/
theorem condIsWrittenOnlyWithARegister : Obligations.CondIsWrittenOnlyWithARegister := by
  intro s t hr h
  refine ⟨fun hw d hd => ?_, fun hw => (step_of_not_writing h hw).2⟩
  obtain ⟨v, e⟩ := step_writes hr hw
  have hdr : (destReg (fetched s)).toFin = d := Fin.ext ((destReg_toNat _).trans hd.symm)
  cases e.symm.trans h
  simpa [hdr] using classifies_flagOf v

/-- Settles O27: a step writes no register but the DR of a writing word. -/
theorem atMostOneRegisterChanges : Obligations.AtMostOneRegisterChanges := by
  intro s t r h hne
  have hr : s.runState = .running := by
    by_contra hn
    cases (step_of_not_running hn).symm.trans h
    exact hne rfl
  have hw : opcode (fetched s) ∈ writingOpcodes := by
    by_contra hn
    exact hne (by rw [State.gpr, State.gpr, (step_of_not_writing h hn).1])
  refine ⟨?_, hw⟩
  obtain ⟨v, e⟩ := step_writes hr hw
  cases e.symm.trans h
  by_cases hd : (destReg (fetched s)).toFin = r
  · rw [← hd]
    exact destReg_toNat _
  · exact absurd (by simp [State.gpr_setGpr, hd]) hne

/-! ### Operand validation (60_exceptions.md R122, R129) -/

/-- `gprOperand_val` for an index given with its bound. -/
theorem gprOperand_of_lt {i : Nat} (h : i < 8) : gprOperand i = .ok ⟨i, h⟩ := gprOperand_val ⟨i, h⟩

/-- The first bad index of DR, SR1, SR2 is the one reported. -/
theorem aluReg_raises (f : Word → Word → Word) {dr sr1 sr2 k : Nat} (s : State) (hk : 8 ≤ k)
    (h : k = dr ∨ dr < 8 ∧ k = sr1 ∨ dr < 8 ∧ sr1 < 8 ∧ k = sr2) :
    aluReg f dr sr1 sr2 s = .error (.invalidRegister k) := by
  rcases h with rfl | ⟨hd, rfl⟩ | ⟨hd, h1, rfl⟩
  · simp [aluReg, bind, Except.bind, gprOperand_of_ge hk]
  · simp [aluReg, bind, Except.bind, gprOperand_of_lt hd, gprOperand_of_ge hk]
  · simp [aluReg, bind, Except.bind, gprOperand_of_lt hd, gprOperand_of_lt h1, gprOperand_of_ge hk]

/-- The first bad index of DR, SR1 is the one reported. -/
theorem aluOne_raises (f : Word → Word) {dr sr1 k : Nat} (s : State) (hk : 8 ≤ k)
    (h : k = dr ∨ dr < 8 ∧ k = sr1) : aluOne f dr sr1 s = .error (.invalidRegister k) := by
  rcases h with rfl | ⟨hd, rfl⟩
  · simp [aluOne, bind, Except.bind, gprOperand_of_ge hk]
  · simp [aluOne, bind, Except.bind, gprOperand_of_lt hd, gprOperand_of_ge hk]

/-- A bad DR is reported before memory is read. -/
theorem loadIndirect_raises {dr : Nat} (off9 : BitVec 9) (s : State) (h : 8 ≤ dr) :
    loadIndirect dr off9 s = .error (.invalidRegister dr) := by
  simp [loadIndirect, bind, Except.bind, gprOperand_of_ge h]

/-- A rule that raises in a RUNNING core ends FAULTED with its record (60_exceptions.md R126). -/
theorem settle_error_of_running {s : State} {r : Except FatalError State} {e : FatalError}
    (hr : s.runState = .running) (h : r = .error e) :
    settle s r = .next { s with runState := .faulted, fault := some e } := by
  rw [h, settle_error, State.raise_of_running s e hr]

/-- Settles O30: each form raises through its shared rule, whatever the operation. -/
theorem invalidRegisterOperands : Obligations.InvalidRegisterOperands := by
  intro s dr sr1 sr2 k imm5 off9 hr hk
  refine ⟨?_, fun h => ?_, fun h => ?_⟩
  · rintro rfl
    exact settle_error_of_running hr (loadIndirect_raises off9 s hk)
  · have raised (f) := settle_error_of_running hr (aluOne_raises f s hk h)
    exact ⟨raised _, raised _, raised _⟩
  · have raised (f) := settle_error_of_running hr (aluReg_raises f s hk h)
    exact ⟨raised _, raised _⟩

/-! ### `setcc` and the branch test -/

/-- The three cases of 10_state.md R27 determine the flag. -/
theorem flagOf_eq {v : Word} {f : Cond} (hz : v = 0x0000#16 → f = .z)
    (hn : v ≠ 0x0000#16 → v.getLsbD 15 = true → f = .n) (hp : v ≠ 0x0000#16 → v.getLsbD 15 = false → f = .p) :
    flagOf v = f := by
  unfold flagOf
  split
  · exact (hz ‹_›).symm
  · split
    · exact (hn ‹_› ‹_›).symm
    · exact (hp ‹_› (Bool.eq_false_of_not_eq_true ‹_›)).symm

/-- Any index outside 0..7 is an internal error (60_exceptions.md R124). -/
theorem setcc_of_ge {i : Nat} (h : 8 ≤ i) (s : State) : setcc i s = .error (.internalFlagIndex i) := by
  simp [setcc, gprIndex?_of_ge h]

/-- Settles O16: the three cases of R27 pin the flag. -/
theorem setccRule : Obligations.SetccRule := by
  refine fun s => ⟨fun i f hz hn hp => ?_, fun i hi => setcc_of_ge hi s⟩
  rw [setcc_val, flagOf_eq hz hn hp]
  rfl

/-- Each flag is selected by its own bit of the mask (42_branch.md R101). -/
theorem branchTaken_n (mask : BitVec 3) : branchTaken mask .n = mask.getLsbD 2 := by
  revert mask
  decide
theorem branchTaken_z (mask : BitVec 3) : branchTaken mask .z = mask.getLsbD 1 := by
  revert mask
  decide
theorem branchTaken_p (mask : BitVec 3) : branchTaken mask .p = mask.getLsbD 0 := by
  revert mask
  decide

/-- Settles O17, flag by flag. -/
theorem branchMaskTable : Obligations.BranchMaskTable := by
  refine ⟨rfl, rfl, rfl, fun mask c => ?_⟩
  cases c with
  | n => simp [branchTaken_n]
  | z => simp [branchTaken_z]
  | p => simp [branchTaken_p]

/-! ### ReadReg -/

theorem slotOf?_natCast (n : Nat) :
    slotOf? (n : Int) = if n = 8 then some .pc else if n = 9 then some .cond else (gprIndex? n).map Slot.gpr := rfl

/-- Slots 0..7 are the general registers (10_state.md R31). -/
theorem slotOf?_val (i : Fin 8) : slotOf? (i.val : Int) = some (.gpr i) := by
  rw [slotOf?_natCast, if_neg (by omega), if_neg (by omega), gprIndex?_val, Option.map_some]

/-- No slot stands outside 0..9 (10_state.md R31). -/
theorem slotOf?_eq_none {i : Int} (h : i < 0 ∨ 10 ≤ i) : slotOf? i = none := by
  cases i with
  | ofNat n =>
    have hn : 10 ≤ n := by
      rw [Int.ofNat_eq_natCast] at h
      omega
    rw [Int.ofNat_eq_natCast, slotOf?_natCast, if_neg (by omega), if_neg (by omega), gprIndex?_of_ge (by omega),
      Option.map_none]
  | negSucc n => rfl

/-- A slot that exists is read, and nothing changes (70_reset_and_hazards.md R156). -/
theorem transact_readReg_of_slot (p : ResetParams) (q : Session) {i : Int} {k : Slot} (h : slotOf? i = some k) :
    transact p (.readReg i) q = .next (q, .value (readSlot k q.core)) := by
  simp [transact, transactReadReg, h, Session.answer]

/-- Any other index is an InvalidRegister (60_exceptions.md R122, R126). -/
theorem transact_readReg_of_no_slot (p : ResetParams) (q : Session) {i : Int} (h : slotOf? i = none) :
    transact p (.readReg i) q = q.fail (.invalidRegister i) := by
  simp [transact, transactReadReg, h]

/-- A transaction that errs on a RUNNING core leaves it FAULTED with the record (60_exceptions.md R126). -/
theorem Session.fail_of_running {q : Session} (e : FatalError) (h : q.core.runState = .running) :
    q.fail e = .next ({ q with core := { q.core with runState := .faulted, fault := some e } }, .failed) := by
  rw [Session.fail, State.raise_of_running _ _ h]
  rfl

/-- A transaction that errs on any other core leaves it as it is (60_exceptions.md R128). -/
theorem Session.fail_of_not_running {q : Session} (e : FatalError) (h : q.core.runState ≠ .running) :
    q.fail e = .next (q, .failed) := by
  rw [Session.fail, State.raise_of_not_running _ _ h]
  rfl

/-- Settles O42, from the slot each index names. -/
theorem readRegisterSlots : Obligations.ReadRegisterSlots := by
  refine fun p q => ⟨fun i => transact_readReg_of_slot p q (slotOf?_val i),
    transact_readReg_of_slot p q (k := .pc) rfl, transact_readReg_of_slot p q (k := .cond) rfl, fun i hi => ?_⟩
  rw [transact_readReg_of_no_slot p q (slotOf?_eq_none hi)]
  exact ⟨Session.fail_of_running _, Session.fail_of_not_running _⟩

end Sys2Proof.Machine
end

section
/-! PROOFS. Memory (20_memory.md): canonical memories are determined by their words, access is bounds-checked, a step
reads only the words its rule lists and writes none, and a placed word is the one the next step runs. -/

namespace Sys2Proof.Machine

/-! ### Canonical memories and their words (20_memory.md R40) -/

/-- The entries of a canonical memory are the indices that do not read as unlisted, with what they read as. -/
theorem Memory.mem_iff_readByte {m : Memory} (h : m.wf) (c : Host.Cell) :
    c ∈ m ↔ m.readByte c.1 = c.2 ∧ c.2 ≠ Memory.unlisted := by
  induction m with
  | nil => simpa [Memory.readByte] using fun e => e.symm
  | cons d m ih =>
    obtain ⟨⟨ha, -, hd⟩, hm⟩ := Memory.wf_cons.1 h
    rw [List.mem_cons, ih hm, Memory.readByte]
    by_cases hk : d.1 = c.1
    · have hc : Memory.readByte m c.1 = Memory.unlisted := Memory.readByte_above (hk ▸ ha)
      rw [if_pos hk, hc, Prod.ext_iff]
      constructor
      · rintro (⟨-, hv⟩ | ⟨hv, hne⟩)
        · exact ⟨hv.symm, hv ▸ hd⟩
        · exact absurd hv.symm hne
      · rintro ⟨hv, -⟩
        exact .inl ⟨hk.symm, hv.symm⟩
    · rw [if_neg hk, or_iff_right fun e => hk (congrArg Prod.fst e).symm]

/-- Every byte index is one of a word's two halves. -/
theorem byteIndex_cases {k : Nat} (h : k < byteCount) : ∃ a : Word, k = loIndex a ∨ k = hiIndex a := by
  refine ⟨BitVec.ofNat 16 (k / 2), ?_⟩
  simp only [loIndex, hiIndex, BitVec.toNat_ofNat]
  unfold byteCount at h
  omega

theorem lowByte_readWord (m : Memory) (a : Word) : lowByte (m.readWord a) = m.readByte (loIndex a) :=
  BitVec.extractLsb'_append_eq_right

theorem highByte_readWord (m : Memory) (a : Word) : highByte (m.readWord a) = m.readByte (hiIndex a) :=
  BitVec.extractLsb'_append_eq_left

/-- Memories that agree on every word agree on every byte of the address space. -/
theorem Memory.readByte_eq_of_readWord_eq {m n : Memory} (h : ∀ a : Word, m.readWord a = n.readWord a) {k : Nat}
    (hk : k < byteCount) : m.readByte k = n.readByte k := by
  obtain ⟨a, rfl | rfl⟩ := byteIndex_cases hk
  · rw [← lowByte_readWord, h, lowByte_readWord]
  · rw [← highByte_readWord, h, highByte_readWord]

/-- An entry of one of two canonical memories that agree on every word is an entry of the other. -/
theorem Memory.mem_of_readWord_eq {m n : Memory} (hm : m.wf) (hn : n.wf)
    (h : ∀ a : Word, m.readWord a = n.readWord a) {c : Host.Cell} (hc : c ∈ m) : c ∈ n := by
  obtain ⟨hv, hne⟩ := (Memory.mem_iff_readByte hm c).1 hc
  have hk : c.1 < byteCount := (hm.2 c hc).1
  exact (Memory.mem_iff_readByte hn c).2 ⟨(Memory.readByte_eq_of_readWord_eq h hk).symm.trans hv, hne⟩

/-- Settles O34: both lists rise strictly and have the same entries. -/
theorem canonicalMemoriesAreEqual : Obligations.CanonicalMemoriesAreEqual := by
  intro m n hm hn h
  have : Std.Irrefl (fun c d : Host.Cell => c.1 < d.1) := ⟨fun c => Nat.lt_irrefl c.1⟩
  have : Std.Antisymm (fun c d : Host.Cell => c.1 < d.1) := ⟨fun c d hcd hdc => absurd hcd (Nat.lt_asymm hdc)⟩
  exact hm.1.eq_of_mem_iff hn.1 fun c =>
    ⟨Memory.mem_of_readWord_eq hm hn h, Memory.mem_of_readWord_eq hn hm fun a => (h a).symm⟩

/-! ### Bounds-checked access (20_memory.md R41, R42) -/

/-- An integer in 0..65535 is the address of a Word. -/
theorem exists_addrOf {addr : Int} (h0 : 0 ≤ addr) (h1 : addr < 65536) : ∃ a : Word, addr = addrOf a := by
  rcases memRead_cases [] addr with ⟨a, ha, -⟩ | ⟨hout, -⟩
  · exact ⟨a, ha⟩
  · exact absurd ⟨h0, h1⟩ hout

theorem memRead_of_out_of_bounds (m : Memory) {addr : Int} (h : addr < 0 ∨ 65536 ≤ addr) :
    memRead m addr = .error (.outOfBounds addr) := by
  simp [memRead, wordOf?_eq_none.2 (show ¬ (0 ≤ addr ∧ addr < 65536) by omega)]

theorem memWrite_of_out_of_bounds (m : Memory) {addr : Int} (v : Word) (h : addr < 0 ∨ 65536 ≤ addr) :
    memWrite m addr v = .error (.outOfBounds addr) := by
  simp [memWrite, wordOf?_eq_none.2 (show ¬ (0 ≤ addr ∧ addr < 65536) by omega)]

theorem ofInt_addrOf (a : Word) : BitVec.ofInt 16 (addrOf a) = a := by simp [addrOf]

theorem addrOf_inj {a b : Word} : addrOf a = addrOf b ↔ a = b := by simp [addrOf, BitVec.toNat_inj]

/-- Settles O35: in bounds the address is a Word's, where read-after-write speaks of the canonical form. -/
theorem boundsCheckedAccess : Obligations.BoundsCheckedAccess := by
  refine fun m addr v hm => ⟨fun h0 h1 => ?_, fun hout =>
    ⟨memRead_of_out_of_bounds m hout, memWrite_of_out_of_bounds m v hout⟩⟩
  obtain ⟨a, rfl⟩ := exists_addrOf h0 h1
  rw [ofInt_addrOf]
  refine ⟨memRead_addrOf m a, _, memWrite_addrOf m a v, Memory.writeWord_wf hm, fun b => ?_⟩
  have hab : ((b.toNat : Int) = addrOf a) = (a = b) := propext (addrOf_inj.trans eq_comm)
  simp only [Memory.readWord_writeWord hm, hab]

/-! ### The step by what it decodes (40_cycle.md R81, R82) -/

theorem step_of_instr {s : State} {i : Instr} (hr : s.runState = .running) (hd : decode (fetched s) = .instr i) :
    step s = exec i (s.setPc (nextPc s.pc)) := by
  rw [fetched] at hd
  simp [step, hr, hd]

theorem step_of_invalid {s : State} {op : BitVec 4} (hr : s.runState = .running)
    (hd : decode (fetched s) = .invalid op) :
    step s = .next ((s.setPc (nextPc s.pc)).raise (.invalidOpcode op (fetched s) s.pc)) := by
  rw [fetched] at hd
  simp [step, hr, hd, execInvalid, fetched]

/-! ### A placed word (20_memory.md R55) -/

@[simp] theorem State.withFetchWord_pc (s : State) (nbits w : Nat) : (s.withFetchWord nbits w).pc = s.pc := rfl

@[simp] theorem State.withFetchWord_runState (s : State) (nbits w : Nat) :
    (s.withFetchWord nbits w).runState = .running := rfl

/-- The next step fetches the word that was placed. -/
theorem fetched_withFetchWord {s : State} (hm : s.mem.wf) (nbits w : Nat) :
    fetched (s.withFetchWord nbits w) = tableWord nbits w :=
  (Memory.readWord_writeWord hm).trans (if_pos rfl)

theorem decodeTableWord_eq_some {nbits w : Nat} {i : Instr} :
    decodeTableWord nbits w = some i ↔ decode (tableWord nbits w) = .instr i := by
  unfold decodeTableWord
  cases decode (tableWord nbits w) <;> simp

/-- Settles O31: the placed core is RUNNING and fetches the placed word. -/
theorem placedWordIsRun : Obligations.PlacedWordIsRun := by
  intro s nbits w i hm hi
  have hd : decode (fetched (s.withFetchWord nbits w)) = .instr i := by
    rw [fetched_withFetchWord hm]
    exact decodeTableWord_eq_some.1 hi
  rw [step_of_instr (State.withFetchWord_runState s nbits w) hd, State.withFetchWord_pc]

/-! ### PC-relative addresses modulo 2^16 (30_encoding.md R65, R72; D4) -/

/-- R65's OR of 1-bits is the two's-complement extension. -/
theorem sext_eq_signExtend {n : Nat} (v : BitVec n) : sext n v = v.signExtend 16 := by
  apply BitVec.eq_of_getLsbD_eq
  intro k hk
  have hones : (0xFFFF#16).getLsbD (k - n) = true := by
    rw [show 0xFFFF#16 = BitVec.allOnes 16 by decide, BitVec.getLsbD_allOnes]
    exact decide_eq_true (by omega)
  rw [BitVec.getLsbD_signExtend, BitVec.msb_eq_getLsbD_last, sext]
  by_cases hkn : k < n
  · cases v.getLsbD (n - 1) <;> simp [hk, hkn]
  · have hv : v.getLsbD k = false := BitVec.getLsbD_of_ge v k (by omega)
    cases v.getLsbD (n - 1) <;> simp [hk, hkn, hv, hones]

/-- Adding an extended immediate is adding its signed value modulo 2^16. -/
theorem add_sext_toNat {n : Nat} (a : Word) (v : BitVec n) :
    ((a + sext n v).toNat : Int) = (a.toNat + v.toInt) % 65536 := by
  rw [sext_eq_signExtend, BitVec.signExtend, BitVec.toNat_add, BitVec.toNat_ofInt]
  omega

theorem nextPc_toNat (a : Word) : (nextPc a).toNat = (a.toNat + 1) % 65536 := BitVec.toNat_add a 1#16

theorem pcOffset9_eq_ofNat (w : Word) : pcOffset9 w = BitVec.ofNat 9 w.toNat := by
  apply BitVec.eq_of_toNat_eq
  rw [pcOffset9_toNat, BitVec.toNat_ofNat]

/-- The PC-relative address in the state after the fetch, as a number. -/
theorem pcRelative_fetch_toNat (off9 : BitVec 9) (s : State) :
    ((pcRelative off9 (s.setPc (nextPc s.pc))).toNat : Int) = (s.pc.toNat + 1 + off9.toInt) % 65536 := by
  rw [pcRelative, add_sext_toNat, State.setPc_pc, nextPc_toNat]
  omega

/-! ### What a step reads and writes of memory (20_memory.md R44) -/

theorem ExecEnds.mem {i : Instr} {s t : State} (h : ExecEnds s i t) : t.mem = s.mem := by
  cases h <;> simp

/-- No step writes memory. -/
theorem step_mem {s t : State} (h : step s = .next t) : t.mem = s.mem := by
  rcases step_cases s with ⟨-, e⟩ | ⟨-, ⟨i, u, -, -, e, hu⟩ | ⟨op, -, e⟩⟩ <;> cases e.symm.trans h
  · rfl
  · exact hu.mem
  · simp

/-- Raising an error is the same over any memory. -/
theorem State.raise_setMem (s : State) (m : Memory) (e : FatalError) :
    (s.setMem m).raise e = (s.raise e).setMem m := by
  by_cases hr : s.runState = .running
  · rw [State.raise_of_running _ _ hr, State.raise_of_running (s.setMem m) _ hr]
    rfl
  · rw [State.raise_of_not_running _ _ hr, State.raise_of_not_running (s.setMem m) _ hr]

theorem writeResult_setMem (d : Fin 8) (v : Word) (s : State) (m : Memory) :
    writeResult d v (s.setMem m) = (writeResult d v s).map (State.setMem · m) := by
  rw [writeResult_eq, writeResult_eq]
  rfl

theorem aluReg_setMem (f : Word → Word → Word) (dr sr1 sr2 : Nat) (s : State) (m : Memory) :
    aluReg f dr sr1 sr2 (s.setMem m) = (aluReg f dr sr1 sr2 s).map (State.setMem · m) := by
  unfold aluReg
  cases gprOperand dr with
  | error e => rfl
  | ok d =>
    cases gprOperand sr1 with
    | error e => rfl
    | ok r1 =>
      cases gprOperand sr2 with
      | error e => rfl
      | ok r2 => exact writeResult_setMem d _ s m

theorem aluOne_setMem (f : Word → Word) (dr sr1 : Nat) (s : State) (m : Memory) :
    aluOne f dr sr1 (s.setMem m) = (aluOne f dr sr1 s).map (State.setMem · m) := by
  unfold aluOne
  cases gprOperand dr with
  | error e => rfl
  | ok d =>
    cases gprOperand sr1 with
    | error e => rfl
    | ok r1 => exact writeResult_setMem d _ s m

/-- Two memories answer the two reads of an LDI alike (20_memory.md R43). -/
abbrev SameIndirectRead (m n : Memory) (ea : Word) : Prop := m.readWord (m.readWord ea) = n.readWord (n.readWord ea)

theorem loadIndirect_setMem {dr : Nat} {off9 : BitVec 9} {s : State} {m : Memory}
    (h : SameIndirectRead m s.mem (pcRelative off9 s)) :
    loadIndirect dr off9 (s.setMem m) = (loadIndirect dr off9 s).map (State.setMem · m) := by
  rcases gprOperand_cases dr with ⟨d, rfl, -⟩ | ⟨hdr, -⟩
  · have hea : pcRelative off9 (s.setMem m) = pcRelative off9 s := rfl
    rw [loadIndirect_val, loadIndirect_val, hea, State.setMem_mem, h]
    rfl
  · rw [loadIndirect_raises off9 _ hdr, loadIndirect_raises off9 _ hdr]
    rfl

/-- A rule that answers alike over `m` ends alike over `m`. -/
theorem settle_setMem {s t : State} {m : Memory} {r r' : Except FatalError State}
    (hr : r' = r.map (State.setMem · m)) (h : settle s r = .next t) :
    settle (s.setMem m) r' = .next (t.setMem m) := by
  subst hr
  cases r with
  | ok u =>
    cases h
    rfl
  | error e =>
    cases h
    exact congrArg Host.Outcome.next (State.raise_setMem s m e)

theorem execBr_setMem {mask : BitVec 3} {off9 : BitVec 9} {s t : State} (m : Memory)
    (h : execBr mask off9 s = .next t) : execBr mask off9 (s.setMem m) = .next (t.setMem m) := by
  unfold execBr at h ⊢
  cases h
  rw [State.setMem_cond]
  split <;> rfl

/-- An instruction does the same over any memory that answers its reads alike. -/
theorem exec_setMem {i : Instr} {s t : State} {m : Memory}
    (hm : ∀ dr off9, i = .ldi dr off9 → SameIndirectRead m s.mem (pcRelative off9 s))
    (h : exec i s = .next t) : exec i (s.setMem m) = .next (t.setMem m) := by
  cases i with
  | addReg dr sr1 sr2 => exact settle_setMem (aluReg_setMem _ dr sr1 sr2 s m) h
  | addImm dr sr1 imm5 => exact settle_setMem (aluOne_setMem _ dr sr1 s m) h
  | andReg dr sr1 sr2 => exact settle_setMem (aluReg_setMem _ dr sr1 sr2 s m) h
  | andImm dr sr1 imm5 => exact settle_setMem (aluOne_setMem _ dr sr1 s m) h
  | not dr sr1 => exact settle_setMem (aluOne_setMem _ dr sr1 s m) h
  | br mask off9 => exact execBr_setMem m h
  | ldi dr off9 => exact settle_setMem (loadIndirect_setMem (hm dr off9 rfl)) h

/-- The state after the fetch, over another memory. -/
theorem fetchedState_setMem (s : State) (m : Memory) :
    (s.setMem m).setPc (nextPc (s.setMem m).pc) = (s.setPc (nextPc s.pc)).setMem m := rfl

/-- A step does the same over any memory that holds the word it fetches and answers an LDI's reads alike. -/
theorem step_setMem {s t : State} {m : Memory} (hf : fetched (s.setMem m) = fetched s)
    (hm : ∀ dr off9, decode (fetched s) = .instr (.ldi dr off9) →
      SameIndirectRead m s.mem (pcRelative off9 (s.setPc (nextPc s.pc))))
    (h : step s = .next t) : step (s.setMem m) = .next (t.setMem m) := by
  by_cases hr : s.runState = .running
  · cases hd : decode (fetched s) with
    | instr i =>
      rw [step_of_instr hr hd] at h
      rw [step_of_instr (s := s.setMem m) hr (hf ▸ hd), fetchedState_setMem]
      exact exec_setMem (fun dr off9 hi => hm dr off9 (hi ▸ hd)) h
    | invalid op =>
      cases (step_of_invalid hr hd).symm.trans h
      rw [step_of_invalid (s := s.setMem m) hr (hf ▸ hd), hf, fetchedState_setMem, State.raise_setMem]
      rfl
  · cases (step_of_not_running hr).symm.trans h
    exact step_of_not_running (s := s.setMem m) hr

theorem opcode_of_decode_ldi {w : Word} {dr : Nat} {off9 : BitVec 9} (h : decode w = .instr (.ldi dr off9)) :
    opcode w = opcodeLdi ∧ off9 = pcOffset9 w := by
  rcases decode_cases w with ⟨-, -, e⟩ | ⟨-, -, e⟩ | ⟨-, -, e⟩ | ⟨-, -, e⟩ | ⟨-, e⟩ | ⟨-, e⟩ | ⟨ho, e⟩ |
    ⟨-, -, -, -, -, e⟩ <;> cases e.symm.trans h
  exact ⟨ho, rfl⟩

/-- Settles O25: the effective address of an LDI is the one at which the memories agree. -/
theorem memoryReachedAsListed : Obligations.MemoryReachedAsListed := by
  refine fun s t h => ⟨step_mem h, fun m hf hldi => step_setMem (m := m) hf (fun dr off9 hd => ?_) h⟩
  obtain ⟨hop, rfl⟩ := opcode_of_decode_ldi hd
  obtain ⟨hpointer, hword⟩ := hldi (pcRelative (pcOffset9 (fetched s)) (s.setPc (nextPc s.pc))) hop
    (pcOffset9_eq_ofNat (fetched s) ▸ pcRelative_fetch_toNat (pcOffset9 (fetched s)) s)
  rw [SameIndirectRead, hpointer, hword]

end Sys2Proof.Machine
end

section
/-! PROOFS. The encoding (30_encoding.md): a word decodes to an instruction exactly when its fields hold the opcode and
the operands, which only the bits the format names decide; encoded words hold them; the other opcodes are invalid. -/

namespace Sys2Proof

open Sys2Proof.Machine

/-! ### The fields of R61 as masks -/

/-- The bits of a field of `n` bits from bit `i` up. -/
def fieldMask (i n : Nat) : Word := (BitVec.allOnes n).setWidth 16 <<< i

theorem getLsbD_fieldMask (i n k : Nat) :
    (fieldMask i n).getLsbD k = true ↔ k < 16 ∧ i ≤ k ∧ k < i + n := by
  simp only [fieldMask, BitVec.getLsbD_shiftLeft, BitVec.getLsbD_setWidth, BitVec.getLsbD_allOnes, Bool.and_eq_true,
    Bool.not_eq_true', decide_eq_true_eq, decide_eq_false_iff_not]
  omega

/-- Words agree under a mask when they agree in each of its bits. -/
theorem and_eq_and_iff {w u m : Word} :
    w &&& m = u &&& m ↔ ∀ k, m.getLsbD k = true → w.getLsbD k = u.getLsbD k := by
  constructor
  · intro h k hk
    simpa [hk] using congrArg (BitVec.getLsbD · k) h
  · intro h
    apply BitVec.eq_of_getLsbD_eq
    intro k _
    cases hk : m.getLsbD k with
    | false => simp [hk]
    | true => simp [hk, h k hk]

/-- Words agree under two masks at once when they agree under each. -/
theorem and_or_eq_and_or_iff {w u m n : Word} :
    w &&& (m ||| n) = u &&& (m ||| n) ↔ w &&& m = u &&& m ∧ w &&& n = u &&& n := by
  simp only [and_eq_and_iff, BitVec.getLsbD_or, Bool.or_eq_true, or_imp, forall_and]

/-- Words have the same field when they agree under its mask. -/
theorem extractLsb'_eq_iff (i n : Nat) {w u : Word} :
    w.extractLsb' i n = u.extractLsb' i n ↔ w &&& fieldMask i n = u &&& fieldMask i n := by
  simp only [and_eq_and_iff, getLsbD_fieldMask]
  constructor
  · rintro h k ⟨-, hik, hkn⟩
    have hbit := congrArg (BitVec.getLsbD · (k - i)) h
    simpa [BitVec.getLsbD_extractLsb', show k - i < n by omega, Nat.add_sub_cancel' hik] using hbit
  · intro h
    apply BitVec.eq_of_getLsbD_eq
    intro k hk
    simp only [BitVec.getLsbD_extractLsb', hk, decide_true, Bool.true_and]
    by_cases hlt : i + k < 16
    · exact h (i + k) ⟨hlt, by omega, by omega⟩
    · rw [BitVec.getLsbD_of_ge w _ (by omega), BitVec.getLsbD_of_ge u _ (by omega)]

section
variable {w u : Word}

theorem opcode_eq_iff : opcode w = opcode u ↔ w &&& 0xF000#16 = u &&& 0xF000#16 := extractLsb'_eq_iff 12 4
theorem destReg_eq_iff : destReg w = destReg u ↔ w &&& 0x0E00#16 = u &&& 0x0E00#16 := extractLsb'_eq_iff 9 3
theorem srcReg1_eq_iff : srcReg1 w = srcReg1 u ↔ w &&& 0x01C0#16 = u &&& 0x01C0#16 := extractLsb'_eq_iff 6 3
theorem srcReg2_eq_iff : srcReg2 w = srcReg2 u ↔ w &&& 0x0007#16 = u &&& 0x0007#16 := extractLsb'_eq_iff 0 3
theorem immediate5_eq_iff : immediate5 w = immediate5 u ↔ w &&& 0x001F#16 = u &&& 0x001F#16 :=
  extractLsb'_eq_iff 0 5
theorem pcOffset9_eq_iff : pcOffset9 w = pcOffset9 u ↔ w &&& 0x01FF#16 = u &&& 0x01FF#16 := extractLsb'_eq_iff 0 9
theorem isImmediateMode_eq_iff :
    isImmediateMode w = isImmediateMode u ↔ w &&& 0x0020#16 = u &&& 0x0020#16 := by
  rw [show 0x0020#16 = fieldMask 5 1 from rfl, and_eq_and_iff]
  constructor
  · intro h k hk
    obtain ⟨-, hlo, hhi⟩ := (getLsbD_fieldMask 5 1 k).1 hk
    rwa [show k = 5 by omega]
  · exact fun h => h 5 rfl

/-! ### The masks of R63 to R69, field by field -/

theorem and_F020_eq_iff : w &&& 0xF020#16 = u &&& 0xF020#16 ↔
    opcode w = opcode u ∧ isImmediateMode w = isImmediateMode u := by
  rw [opcode_eq_iff, isImmediateMode_eq_iff, ← and_or_eq_and_or_iff]
  rfl

theorem and_FFE7_eq_iff : w &&& 0xFFE7#16 = u &&& 0xFFE7#16 ↔
    opcode w = opcode u ∧ isImmediateMode w = isImmediateMode u ∧ destReg w = destReg u ∧ srcReg1 w = srcReg1 u ∧
      srcReg2 w = srcReg2 u := by
  rw [opcode_eq_iff, isImmediateMode_eq_iff, destReg_eq_iff, srcReg1_eq_iff, srcReg2_eq_iff]
  simp only [← and_or_eq_and_or_iff]
  rfl

theorem and_FFC0_eq_iff : w &&& 0xFFC0#16 = u &&& 0xFFC0#16 ↔
    opcode w = opcode u ∧ destReg w = destReg u ∧ srcReg1 w = srcReg1 u := by
  rw [opcode_eq_iff, destReg_eq_iff, srcReg1_eq_iff]
  simp only [← and_or_eq_and_or_iff]
  rfl

/-- The immediate format of ADD and AND names every bit. -/
theorem and_FFFF_eq_iff_immediate : w &&& 0xFFFF#16 = u &&& 0xFFFF#16 ↔
    opcode w = opcode u ∧ isImmediateMode w = isImmediateMode u ∧ destReg w = destReg u ∧ srcReg1 w = srcReg1 u ∧
      immediate5 w = immediate5 u := by
  rw [opcode_eq_iff, isImmediateMode_eq_iff, destReg_eq_iff, srcReg1_eq_iff, immediate5_eq_iff]
  simp only [← and_or_eq_and_or_iff]
  rfl

/-- The offset format of BR and LDI names every bit. -/
theorem and_FFFF_eq_iff_offset : w &&& 0xFFFF#16 = u &&& 0xFFFF#16 ↔
    opcode w = opcode u ∧ destReg w = destReg u ∧ pcOffset9 w = pcOffset9 u := by
  rw [opcode_eq_iff, destReg_eq_iff, pcOffset9_eq_iff]
  simp only [← and_or_eq_and_or_iff]
  rfl

end

/-! ### What a word decodes to, read off its fields -/

/-- The word holds the opcode, the mode and the operands of the instruction, in the fields of its format (R63 to R69). -/
def HoldsFields (w : Word) : Instr → Prop
  | .addReg dr sr1 sr2 => opcode w = opcodeAdd ∧ isImmediateMode w = false ∧ (destReg w).toNat = dr ∧
      (srcReg1 w).toNat = sr1 ∧ (srcReg2 w).toNat = sr2
  | .addImm dr sr1 imm5 => opcode w = opcodeAdd ∧ isImmediateMode w = true ∧ (destReg w).toNat = dr ∧
      (srcReg1 w).toNat = sr1 ∧ immediate5 w = imm5
  | .andReg dr sr1 sr2 => opcode w = opcodeAnd ∧ isImmediateMode w = false ∧ (destReg w).toNat = dr ∧
      (srcReg1 w).toNat = sr1 ∧ (srcReg2 w).toNat = sr2
  | .andImm dr sr1 imm5 => opcode w = opcodeAnd ∧ isImmediateMode w = true ∧ (destReg w).toNat = dr ∧
      (srcReg1 w).toNat = sr1 ∧ immediate5 w = imm5
  | .not dr sr1 => opcode w = opcodeNot ∧ (destReg w).toNat = dr ∧ (srcReg1 w).toNat = sr1
  | .br mask off9 => opcode w = opcodeBr ∧ branchCondMask w = mask ∧ pcOffset9 w = off9
  | .ldi dr off9 => opcode w = opcodeLdi ∧ (destReg w).toNat = dr ∧ pcOffset9 w = off9

theorem holdsFields_of_decode {w : Word} {i : Instr} (h : decode w = .instr i) : HoldsFields w i := by
  rcases decode_cases w with ⟨ho, hm, e⟩ | ⟨ho, hm, e⟩ | ⟨ho, hm, e⟩ | ⟨ho, hm, e⟩ | ⟨ho, e⟩ | ⟨ho, e⟩ | ⟨ho, e⟩ |
    ⟨-, -, -, -, -, e⟩ <;> cases e.symm.trans h
  · exact ⟨ho, hm, rfl, rfl, rfl⟩
  · exact ⟨ho, hm, rfl, rfl, rfl⟩
  · exact ⟨ho, hm, rfl, rfl, rfl⟩
  · exact ⟨ho, hm, rfl, rfl, rfl⟩
  · exact ⟨ho, rfl, rfl⟩
  · exact ⟨ho, rfl, rfl⟩
  · exact ⟨ho, rfl, rfl⟩

theorem decode_of_holdsFields {w : Word} {i : Instr} (h : HoldsFields w i) : decode w = .instr i := by
  cases i with
  | addReg dr sr1 sr2 =>
    obtain ⟨ho, hm, rfl, rfl, rfl⟩ := h
    simp [decode, ho, hm]
  | addImm dr sr1 imm5 =>
    obtain ⟨ho, hm, rfl, rfl, rfl⟩ := h
    simp [decode, ho, hm]
  | andReg dr sr1 sr2 =>
    obtain ⟨ho, hm, rfl, rfl, rfl⟩ := h
    simp [decode, ho, hm, opcodeAnd, opcodeAdd]
  | andImm dr sr1 imm5 =>
    obtain ⟨ho, hm, rfl, rfl, rfl⟩ := h
    simp [decode, ho, hm, opcodeAnd, opcodeAdd]
  | not dr sr1 =>
    obtain ⟨ho, rfl, rfl⟩ := h
    simp [decode, ho, opcodeNot, opcodeAnd, opcodeAdd]
  | br mask off9 =>
    obtain ⟨ho, rfl, rfl⟩ := h
    simp [decode, ho, opcodeBr, opcodeNot, opcodeAnd, opcodeAdd]
  | ldi dr off9 =>
    obtain ⟨ho, rfl, rfl⟩ := h
    simp [decode, ho, opcodeLdi, opcodeBr, opcodeNot, opcodeAnd, opcodeAdd]

/-- The words of an instruction are those whose fields hold it. -/
theorem decode_eq_instr_iff {w : Word} {i : Instr} : decode w = .instr i ↔ HoldsFields w i :=
  ⟨holdsFields_of_decode, decode_of_holdsFields⟩

/-! ### The round trip -/

theorem isGprIndex_iff {i : Nat} : isGprIndex i = true ↔ i < 8 := decide_eq_true_iff

theorem isImmediateMode_eq_false_iff (w : Word) : isImmediateMode w = false ↔ w.toNat / 32 % 2 = 0 := by
  rw [← Bool.not_eq_true, isImmediateMode_iff]
  omega

/-- Each field of an encoded well-formed instruction is its operand: a register index below 8 fits its field. -/
theorem holdsFields_encode {i : Instr} (h : i.WellFormed) : HoldsFields (encode i) i := by
  cases i with
  | addReg dr sr1 sr2 =>
    simp only [Instr.WellFormed, Instr.wellFormed, Bool.and_eq_true, isGprIndex_iff] at h
    refine ⟨BitVec.eq_of_toNat_eq (Laws.OpcodeField.addReg dr sr1 sr2), ?_⟩
    rw [isImmediateMode_eq_false_iff, destReg_toNat, srcReg1_toNat, srcReg2_toNat, encode_addReg_toNat]
    omega
  | addImm dr sr1 imm5 =>
    simp only [Instr.WellFormed, Instr.wellFormed, Bool.and_eq_true, isGprIndex_iff] at h
    refine ⟨BitVec.eq_of_toNat_eq (Laws.OpcodeField.addImm dr sr1 imm5), ?_⟩
    rw [isImmediateMode_iff, destReg_toNat, srcReg1_toNat, ← BitVec.toNat_inj, immediate5_toNat, encode_addImm_toNat]
    omega
  | andReg dr sr1 sr2 =>
    simp only [Instr.WellFormed, Instr.wellFormed, Bool.and_eq_true, isGprIndex_iff] at h
    refine ⟨BitVec.eq_of_toNat_eq (Laws.OpcodeField.andReg dr sr1 sr2), ?_⟩
    rw [isImmediateMode_eq_false_iff, destReg_toNat, srcReg1_toNat, srcReg2_toNat, encode_andReg_toNat]
    omega
  | andImm dr sr1 imm5 =>
    simp only [Instr.WellFormed, Instr.wellFormed, Bool.and_eq_true, isGprIndex_iff] at h
    refine ⟨BitVec.eq_of_toNat_eq (Laws.OpcodeField.andImm dr sr1 imm5), ?_⟩
    rw [isImmediateMode_iff, destReg_toNat, srcReg1_toNat, ← BitVec.toNat_inj, immediate5_toNat, encode_andImm_toNat]
    omega
  | not dr sr1 =>
    simp only [Instr.WellFormed, Instr.wellFormed, Bool.and_eq_true, isGprIndex_iff] at h
    refine ⟨BitVec.eq_of_toNat_eq (Laws.OpcodeField.not dr sr1), ?_⟩
    rw [destReg_toNat, srcReg1_toNat, encode_not_toNat]
    omega
  | br mask off9 =>
    refine ⟨BitVec.eq_of_toNat_eq (Laws.OpcodeField.br mask off9), ?_⟩
    rw [← BitVec.toNat_inj, ← BitVec.toNat_inj, branchCondMask_toNat, pcOffset9_toNat, encode_br_toNat]
    omega
  | ldi dr off9 =>
    simp only [Instr.WellFormed, Instr.wellFormed, isGprIndex_iff] at h
    refine ⟨BitVec.eq_of_toNat_eq (Laws.OpcodeField.ldi dr off9), ?_⟩
    rw [destReg_toNat, ← BitVec.toNat_inj, pcOffset9_toNat, encode_ldi_toNat]
    omega

/-- Settles O8: the encoded word holds every operand in its field. -/
theorem decodeEncodeAgree : Obligations.DecodeEncodeAgree := fun _ h => decode_of_holdsFields (holdsFields_encode h)

/-- The bits a format names decide whether a word is one of the instruction's. -/
theorem holdsFields_iff_namedBits {w u : Word} {i : Instr} (h : HoldsFields w i) :
    HoldsFields u i ↔ u &&& namedBits i = w &&& namedBits i := by
  cases i with
  | addReg dr sr1 sr2 =>
    obtain ⟨ho, hm, rfl, rfl, rfl⟩ := h
    simp only [HoldsFields, BitVec.toNat_inj, ← ho, ← hm]
    exact and_FFE7_eq_iff.symm
  | addImm dr sr1 imm5 =>
    obtain ⟨ho, hm, rfl, rfl, rfl⟩ := h
    simp only [HoldsFields, BitVec.toNat_inj, ← ho, ← hm]
    exact and_FFFF_eq_iff_immediate.symm
  | andReg dr sr1 sr2 =>
    obtain ⟨ho, hm, rfl, rfl, rfl⟩ := h
    simp only [HoldsFields, BitVec.toNat_inj, ← ho, ← hm]
    exact and_FFE7_eq_iff.symm
  | andImm dr sr1 imm5 =>
    obtain ⟨ho, hm, rfl, rfl, rfl⟩ := h
    simp only [HoldsFields, BitVec.toNat_inj, ← ho, ← hm]
    exact and_FFFF_eq_iff_immediate.symm
  | not dr sr1 =>
    obtain ⟨ho, rfl, rfl⟩ := h
    simp only [HoldsFields, BitVec.toNat_inj, ← ho]
    exact and_FFC0_eq_iff.symm
  | br mask off9 =>
    obtain ⟨ho, rfl, rfl⟩ := h
    simp only [HoldsFields, ← ho]
    exact and_FFFF_eq_iff_offset.symm
  | ldi dr off9 =>
    obtain ⟨ho, rfl, rfl⟩ := h
    simp only [HoldsFields, BitVec.toNat_inj, ← ho]
    exact and_FFFF_eq_iff_offset.symm

/-- Beside one word of an instruction, its words are those that agree with it in the named bits. -/
theorem decode_eq_instr_iff_namedBits {w u : Word} {i : Instr} (h : decode w = .instr i) :
    decode u = .instr i ↔ u &&& namedBits i = w &&& namedBits i := by
  rw [decode_eq_instr_iff]
  exact holdsFields_iff_namedBits (holdsFields_of_decode h)

/-- Settles O9: the word and the encoding of what it decodes to are words of the same instruction. -/
theorem encodeDecodeKeepsNamedBits : Obligations.EncodeDecodeKeepsNamedBits := fun w i h =>
  (decode_eq_instr_iff_namedBits h).1 (decodeEncodeAgree i (decodedIsWellFormed w i h))

/-! ### The seven formats (R63, R64, R66, R68, R69) -/

/-- A format of ADD or AND, given its match: the opcode and the mode bit. -/
theorem opcode_mode_iff_match (w : Word) {c : Word} {op : BitVec 4} {mode : Bool} (hc : c &&& 0xF020#16 = c)
    (ho : opcode c = op) (hm : isImmediateMode c = mode) :
    opcode w = op ∧ isImmediateMode w = mode ↔ w &&& 0xF020#16 = c := by
  rw [← ho, ← hm, ← and_F020_eq_iff, hc]

/-- Any other format, given its match: the opcode. -/
theorem opcode_iff_match (w : Word) {c : Word} {op : BitVec 4} (hc : c &&& 0xF000#16 = c) (ho : opcode c = op) :
    opcode w = op ↔ w &&& 0xF000#16 = c := by
  rw [← ho, opcode_eq_iff, hc]

/-- Settles O11: with the operands free, a format is its opcode and mode bit. -/
theorem formatsAreExact : Obligations.FormatsAreExact := by
  intro w
  simp only [decode_eq_instr_iff, HoldsFields, exists_and_left, exists_eq', and_true]
  exact ⟨opcode_mode_iff_match w rfl rfl rfl, opcode_mode_iff_match w rfl rfl rfl,
    opcode_mode_iff_match w rfl rfl rfl, opcode_mode_iff_match w rfl rfl rfl, opcode_iff_match w rfl rfl,
    opcode_iff_match w rfl rfl, opcode_iff_match w rfl rfl⟩

/-- A word that agrees with a decoded one in the named bits decodes alike (R70). -/
theorem decode_eq_of_namedBits {w u : Word} {i : Instr} (h : decode w = .instr i)
    (hu : w &&& namedBits i = u &&& namedBits i) : decode w = decode u :=
  h.trans ((decode_eq_instr_iff_namedBits h).2 hu.symm).symm

/-- Settles O12: the match names the form, whose named bits the words share. -/
theorem unnamedBitsAreIgnored : Obligations.UnnamedBitsAreIgnored := by
  intro w u
  obtain ⟨haddReg, -, handReg, -, hnot, -, -⟩ := formatsAreExact w
  refine ⟨fun hw hu => ?_, fun hw hu => ?_⟩
  · rcases hw with hw | hw
    · obtain ⟨dr, sr1, sr2, h⟩ := haddReg.2 hw
      exact decode_eq_of_namedBits h hu
    · obtain ⟨dr, sr1, sr2, h⟩ := handReg.2 hw
      exact decode_eq_of_namedBits h hu
  · obtain ⟨dr, sr1, h⟩ := hnot.2 hw
    exact decode_eq_of_namedBits h hu

/-- Settles O14, word by word. -/
theorem sampleWordsDecode : Obligations.SampleWordsDecode := by
  unfold Obligations.SampleWordsDecode
  decide

/-! ### Invalid words (R67) -/

/-- The eleven values are the opcodes that no form has. -/
theorem mem_invalidOpcodes_iff (op : BitVec 4) : op ∈ invalidOpcodes ↔
    op ≠ opcodeAdd ∧ op ≠ opcodeAnd ∧ op ≠ opcodeNot ∧ op ≠ opcodeBr ∧ op ≠ opcodeLdi := by
  revert op
  decide

theorem decode_eq_invalid_iff {w : Word} {op : BitVec 4} :
    decode w = .invalid op ↔ op = opcode w ∧ op ∈ invalidOpcodes := by
  rw [mem_invalidOpcodes_iff]
  constructor
  · intro h
    rcases decode_cases w with ⟨-, -, e⟩ | ⟨-, -, e⟩ | ⟨-, -, e⟩ | ⟨-, -, e⟩ | ⟨-, e⟩ | ⟨-, e⟩ | ⟨-, e⟩ |
      ⟨hadd, hand, hnot, hbr, hldi, e⟩ <;> cases e.symm.trans h
    exact ⟨rfl, hadd, hand, hnot, hbr, hldi⟩
  · rintro ⟨rfl, hadd, hand, hnot, hbr, hldi⟩
    simp [decode, hadd, hand, hnot, hbr, hldi]

/-- The opcode as a number, bits 15..12. -/
theorem eq_opcode_iff {w : Word} {op : BitVec 4} : op = opcode w ↔ op.toNat = w.toNat / 4096 := by
  rw [← BitVec.toNat_inj, opcode_toNat]

/-- Settles O13: an invalid word is one whose opcode no form has, and a RUNNING core that fetches it raises. -/
theorem invalidOpcodesFault : Obligations.InvalidOpcodesFault := by
  have hinvalid (w : Word) (op : BitVec 4) :
      decode w = .invalid op ↔ op.toNat = w.toNat / 4096 ∧ op ∈ invalidOpcodes := by
    rw [decode_eq_invalid_iff, eq_opcode_iff]
  refine ⟨hinvalid, fun s op hr hop hmem => ?_⟩
  rw [step_of_invalid hr ((hinvalid _ op).2 ⟨hop, hmem⟩), State.raise_of_running (s.setPc (nextPc s.pc)) _ hr]
  rfl

/-! ### Sign extension (R65) -/

/-- The top bit says whether the value reaches half of the range. -/
theorem getLsbD_top {n : Nat} (v : BitVec n) : v.getLsbD (n - 1) = decide (2 ^ (n - 1) ≤ v.toNat) := by
  rw [← BitVec.msb_eq_getLsbD_last, BitVec.msb_eq_decide]

/-- With its top bit clear a value is unchanged. -/
theorem sext_toNat_of_lt {n : Nat} {v : BitVec n} (hn' : n ≤ 16) (h : v.toNat < 2 ^ (n - 1)) :
    (sext n v).toNat = v.toNat := by
  rw [sext, getLsbD_top v, if_neg (by simpa using h), BitVec.toNat_setWidth_of_le hn']

/-- With its top bit set, every bit from `n` up is set. -/
theorem sext_toNat_of_ge {n : Nat} {v : BitVec n} (hn' : n ≤ 16) (h : 2 ^ (n - 1) ≤ v.toNat) :
    (sext n v).toNat = v.toNat ||| (0xFFFF#16 <<< n).toNat := by
  rw [sext, getLsbD_top v, if_pos (by simpa using h), BitVec.toNat_or, BitVec.toNat_setWidth_of_le hn']

/-- With its top bit set, the signed value is the value less 2^n. -/
theorem sext_toInt_of_ge {n : Nat} {v : BitVec n} (hn' : n ≤ 16) (h : 2 ^ (n - 1) ≤ v.toNat) :
    (sext n v).toInt = (v.toNat : Int) - 2 ^ n := by
  have hmsb : v.msb = true := (BitVec.msb_eq_decide v).trans (decide_eq_true h)
  rw [sext_eq_signExtend, BitVec.toInt_signExtend_of_le hn', BitVec.toInt_eq_msb_cond, if_pos hmsb]
  norm_num

/-- Settles O15: both widths follow the rule for any width up to 16. -/
theorem signExtension : Obligations.SignExtension :=
  ⟨fun _ => ⟨sext_toNat_of_lt (by decide),
      fun h => ⟨sext_toNat_of_ge (by decide) h, sext_toInt_of_ge (by decide) h⟩⟩,
    fun _ => ⟨sext_toNat_of_lt (by decide),
      fun h => ⟨sext_toNat_of_ge (by decide) h, sext_toInt_of_ge (by decide) h⟩⟩⟩

end Sys2Proof
end

section
/-! PROOFS. The cycle (40_cycle.md): which instruction a step runs, what a step that leaves RUNNING has done, and where
a run, as the repetition of the step, ends. -/

namespace Sys2Proof.Machine

/-! ### One step (40_cycle.md R80 to R82, R85) -/

/-- Settles O19: the three clauses are the step by the core's state and by what the fetched word decodes to. -/
theorem stepRunsTheDecodedInstruction : Obligations.StepRunsTheDecodedInstruction := by
  refine fun s => ⟨step_of_not_running, fun hr => ⟨fun i hd => step_of_instr hr hd, fun op hd => ?_⟩⟩
  obtain ⟨hop, hmem⟩ := (invalidOpcodesFault.1 _ op).1 hd
  exact invalidOpcodesFault.2 s op hr hop hmem

/-- Settles O20: each end of a step that `step_cases` lists is a next state. -/
theorem everyStepAnswersAState : Obligations.EveryStepAnswersAState := by
  intro s
  rcases step_cases s with ⟨-, h⟩ | ⟨-, ⟨i, t, -, -, h, -⟩ | ⟨op, -, h⟩⟩
  · exact ⟨s, h⟩
  · exact ⟨t, h⟩
  · exact ⟨_, h⟩

/-- A well-formed instruction raises nothing (60_exceptions.md R125), so it leaves the sequencer's state alone. -/
theorem ExecEnds.runState {i : Instr} {s t : State} (h : ExecEnds s i t) (hi : i.WellFormed) :
    t.runState = s.runState := by
  cases h with
  | writes d v => rfl
  | branches mask off9 => rfl
  | falls mask off9 => rfl
  | raises k _ hbad => exact absurd hi (by simp [hbad])

/-- A step of a RUNNING core either leaves it RUNNING, as every decoded instruction does, or is the fault of an
invalid word (R82, R85). -/
theorem step_runs_on_or_faults {s t : State} (hr : s.runState = .running) (h : step s = .next t) :
    t.runState = .running ∨ ∃ op ∈ invalidOpcodes, op.toNat = (fetched s).toNat / 4096 ∧
      t = { s with
        pc := s.pc + 1#16, runState := .faulted, fault := some (.invalidOpcode op (fetched s) s.pc) } := by
  cases hd : decode (fetched s) with
  | instr i =>
    obtain ⟨u, hu, hends⟩ := exec_ends i (s.setPc (nextPc s.pc))
    cases ((step_of_instr hr hd).trans hu).symm.trans h
    exact .inl ((hends.runState (decodedIsWellFormed _ i hd)).trans hr)
  | invalid op =>
    obtain ⟨hop, hmem⟩ := (invalidOpcodesFault.1 _ op).1 hd
    cases (invalidOpcodesFault.2 s op hr hop hmem).symm.trans h
    exact .inr ⟨op, hmem, hop, rfl⟩

/-- Settles O21: the only step out of RUNNING is the fault of an invalid word, whose next state is written out. -/
theorem faultsArePrecise : Obligations.FaultsArePrecise := by
  intro s t hr h ht
  rcases step_runs_on_or_faults hr h with hrun | ⟨op, hmem, hop, rfl⟩
  · exact absurd hrun ht
  · exact ⟨rfl, rfl, rfl, rfl, rfl, rfl, op, hmem, hop, rfl⟩

/-! ### Run and the repetition of the step (40_cycle.md R83) -/

/-- A Run that stops stepping out of RUNNING answers what the repetition that goes on does (R80). -/
theorem runFor_eq_run (k : Nat) (s : State) : runFor k s = Host.Core.run core k s := by
  induction k generalizing s with
  | zero => rfl
  | succ k ih =>
    by_cases hr : s.runState = .running
    · obtain ⟨t, ht⟩ := everyStepAnswersAState s
      exact (runFor_succ hr ht).trans ((ih t).trans (run_succ ht).symm)
    · exact (runFor_of_not_running hr _).trans (terminalStatesStay _ s hr).symm

/-- Before a Terminate the Run transaction ends in the core its steps lead to (70_reset_and_hazards.md R158, R160). -/
theorem transactRun_of_not_terminated {k : Nat} {q : Session} {t : State} (hq : q.phase ≠ .terminated)
    (h : runFor k q.core = .next t) : transactRun k q = .next (⟨t, .started⟩, .done) := by
  cases hp : q.phase with
  | fresh => simp [transactRun, hp, h]
  | started => simp [transactRun, hp, h]
  | terminated => exact absurd hp hq

/-- Settles O49, by induction on the budget; the transaction is one Run. -/
theorem runIsRepeatedStep : Obligations.RunIsRepeatedStep := by
  refine ⟨runFor_eq_run, fun p q k hq => ?_⟩
  obtain ⟨t, ht⟩ := runFor_next k q.core
  exact ⟨t, (runFor_eq_run k q.core).symm.trans ht, transactRun_of_not_terminated hq ht⟩

/-! ### The end of a run (40_cycle.md R83, 70_reset_and_hazards.md R155) -/

/-- Steps add up: after `k` steps to `t`, `m` more are `m` steps from `t`. -/
theorem run_add {k : Nat} {s t : State} (h : Host.Core.run core k s = .next t) (m : Nat) :
    Host.Core.run core (k + m) s = Host.Core.run core m t := by
  induction k generalizing s with
  | zero =>
    cases h
    rw [Nat.zero_add]
  | succ k ih =>
    obtain ⟨u, hu⟩ := everyStepAnswersAState s
    rw [run_succ hu] at h
    rw [Nat.succ_add, run_succ hu, ih h]

/-- Once out of RUNNING, more steps change nothing. -/
theorem run_of_le {k n : Nat} {s t : State} (h : Host.Core.run core k s = .next t) (ht : t.runState ≠ .running)
    (hn : k ≤ n) : Host.Core.run core n s = .next t := by
  obtain ⟨m, rfl⟩ := Nat.exists_eq_add_of_le hn
  exact (run_add h m).trans (terminalStatesStay m t ht)

/-- Settles O50: two ends of one run are both its state after the larger number of steps. -/
theorem runEndIsUnique : Obligations.RunEndIsUnique := by
  refine fun k s t h ht => ⟨fun n => run_of_le h ht, fun j u hj hu => ?_⟩
  have hmax := (run_of_le hj hu (Nat.le_max_left j k)).symm.trans (run_of_le h ht (Nat.le_max_right j k))
  cases hmax
  rfl

/-- A run that ends has a last step, out of a RUNNING core that still has whatever every step keeps. -/
theorem exists_last_step {P : State → Prop} (hP : ∀ s t, step s = .next t → P s → P t) {k : Nat} {s t : State}
    (hs : P s) (hr : s.runState = .running) (h : runFor k s = .next t) (ht : t.runState ≠ .running) :
    ∃ u, P u ∧ u.runState = .running ∧ step u = .next t := by
  induction k generalizing s with
  | zero =>
    cases h
    exact absurd hr ht
  | succ k ih =>
    obtain ⟨u, hu⟩ := everyStepAnswersAState s
    rw [runFor_succ hr hu] at h
    by_cases hru : u.runState = .running
    · exact ih (hP s u hu hs) hru h
    · cases (runFor_of_not_running hru k).symm.trans h
      exact ⟨s, hs, hr, hu⟩

/-- No update of the state writes `halted`, whatever it holds (10_state.md R29). -/
theorem halted_keptByUpdates (b : Bool) : KeptByUpdates (fun s => s.halted = b) where
  setGpr _ _ _ h := h
  setPc _ _ h := h
  setCond _ _ h := h
  setMem _ _ _ h := h
  raise s e h := (State.raise_halted s e).trans h

/-- Settles O51: the last step of the run is a precise fault, and every step keeps memory and `halted`. -/
theorem runEndsOnlyAtAnInvalidWord : Obligations.RunEndsOnlyAtAnInvalidWord := by
  rintro s t hr ⟨k, h, ht⟩
  have hkept : ∀ u v, step u = .next v → u.mem = s.mem ∧ u.halted = s.halted →
      v.mem = s.mem ∧ v.halted = s.halted := fun u v huv ⟨hm, hh⟩ =>
    ⟨(step_mem huv).trans hm, (halted_keptByUpdates s.halted).of_step huv hh⟩
  obtain ⟨u, ⟨hm, hh⟩, hru, hut⟩ := exists_last_step hkept ⟨rfl, rfl⟩ hr h ht
  obtain ⟨hfaulted, -, -, htm, hth, hpc, op, hmem, hop, hfault⟩ := faultsArePrecise u t hru hut ht
  rw [fetched, hm] at hop hfault
  exact ⟨u.pc, op, hmem, hop, hfaulted, hfault, hpc, htm.trans hm, hth.trans hh⟩

end Sys2Proof.Machine
end

section
/-! PROOFS. The ALU (41_alu.md): an operation on registers in 0..7 completes, in the state with its result written; the
result and its word are then facts about a sum, a conjunction or a complement, and about the fields of a word. -/

namespace Sys2Proof.Machine

/-! ### The state with a result written (10_state.md R28) -/

/-- `s` with the result `v` in register `d` and its class in `cond`: what `writeResult` answers (`writeResult_eq`). -/
def State.withResult (s : State) (d : Fin 8) (v : Word) : State := (s.setGpr d v).setCond (flagOf v)

section
variable (s : State) (d : Fin 8) (v : Word)

@[simp] theorem State.withResult_gpr_self : (s.withResult d v).gpr d = v := State.gpr_setGpr_self s d v
@[simp] theorem State.withResult_cond : (s.withResult d v).cond = flagOf v := rfl

theorem State.withResult_gpr_of_ne {r : Fin 8} (h : r ≠ d) : (s.withResult d v).gpr r = s.gpr r :=
  (State.gpr_setGpr s d r v).trans (if_neg h.symm)

theorem State.sameButResult_withResult : SameButResult d s (s.withResult d v) :=
  ⟨fun _ => s.withResult_gpr_of_ne d v, rfl, rfl, rfl, rfl, fun _ => rfl⟩

end

/-- Two writes of one register leave alone what each leaves alone. -/
theorem SameButResult.trans {d : Fin 8} {s t u : State} (h : SameButResult d s t) (h' : SameButResult d t u) :
    SameButResult d s u := by
  obtain ⟨hgpr, hpc, hhalted, hrun, hfault, hmem⟩ := h
  obtain ⟨hgpr', hpc', hhalted', hrun', hfault', hmem'⟩ := h'
  exact ⟨fun r hr => (hgpr' r hr).trans (hgpr r hr), hpc'.trans hpc, hhalted'.trans hhalted, hrun'.trans hrun,
    hfault'.trans hfault, fun k => (hmem' k).trans (hmem k)⟩

/-- An instruction that writes a result with property `P` completes, with the flag of the result and the frame. -/
theorem exists_next_of_withResult {i : Instr} {s : State} {d : Fin 8} {v : Word} {P : Word → Prop}
    (h : exec i s = .next (s.withResult d v)) (hv : P v) :
    ∃ t, exec i s = .next t ∧ P (t.gpr d) ∧ Classifies t.cond (t.gpr d) ∧ SameButResult d s t := by
  refine ⟨_, h, ?_, ?_, s.sameButResult_withResult d v⟩
  · rwa [State.withResult_gpr_self]
  · rw [State.withResult_gpr_self]
    exact classifies_flagOf v

/-! ### What each operation writes (41_alu.md R90 to R94) -/

section
variable (d r1 r2 : Fin 8) (imm5 : BitVec 5) (s : State)

theorem exec_addReg_val : exec (.addReg d r1 r2) s = .next (s.withResult d (s.gpr r1 + s.gpr r2)) :=
  congrArg (settle s) (aluReg_val _ d r1 r2 s)

theorem exec_addImm_val : exec (.addImm d r1 imm5) s = .next (s.withResult d (s.gpr r1 + immOperand imm5)) :=
  congrArg (settle s) (aluOne_val _ d r1 s)

theorem exec_andReg_val : exec (.andReg d r1 r2) s = .next (s.withResult d (s.gpr r1 &&& s.gpr r2)) :=
  congrArg (settle s) (aluReg_val _ d r1 r2 s)

theorem exec_andImm_val : exec (.andImm d r1 imm5) s = .next (s.withResult d (s.gpr r1 &&& immOperand imm5)) :=
  congrArg (settle s) (aluOne_val _ d r1 s)

theorem exec_not_val : exec (.not d r1) s = .next (s.withResult d (~~~s.gpr r1)) :=
  congrArg (settle s) (aluOne_val _ d r1 s)

end

/-! ### The immediate (30_encoding.md R61, R65, R72) -/

theorem immediate5_eq_ofNat (w : Word) : immediate5 w = BitVec.ofNat 5 w.toNat := by
  apply BitVec.eq_of_toNat_eq
  rw [immediate5_toNat, BitVec.toNat_ofNat]

/-- Bits 15..5 of the operand all equal bit 4 of the field. -/
theorem getLsbD_immOperand (imm5 : BitVec 5) {k : Nat} (hk : k < 16) :
    (immOperand imm5).getLsbD k = imm5.getLsbD (min k 4) := by
  rw [immOperand, sext_eq_signExtend, BitVec.getLsbD_signExtend, BitVec.msb_eq_getLsbD_last, decide_eq_true hk,
    Bool.true_and]
  split
  · rw [Nat.min_eq_left (by omega)]
  · rw [Nat.min_eq_right (by omega)]

/-! ### The five forms -/

/-- Settles O1: the match holds the opcode and the mode bit, and the sum is the Word's own. -/
theorem addRegisterForm : Obligations.AddRegisterForm := by
  refine ⟨fun w hw => ?_, fun dr sr1 sr2 s => ?_⟩
  · obtain ⟨ho, hm⟩ := (opcode_mode_iff_match w rfl rfl rfl).2 hw
    exact decode_of_holdsFields ⟨ho, hm, destReg_toNat w, srcReg1_toNat w, srcReg2_toNat w⟩
  · exact exists_next_of_withResult (P := fun v => v.toNat = ((s.gpr sr1).toNat + (s.gpr sr2).toNat) % 65536)
      (exec_addReg_val dr sr1 sr2 s) (BitVec.toNat_add _ _)

/-- Settles O2: adding the extended immediate is adding its signed value modulo 2^16. -/
theorem addImmediateForm : Obligations.AddImmediateForm := by
  refine ⟨fun w hw => ?_, fun dr sr1 imm5 s => ?_⟩
  · obtain ⟨ho, hm⟩ := (opcode_mode_iff_match w rfl rfl rfl).2 hw
    exact decode_of_holdsFields ⟨ho, hm, destReg_toNat w, srcReg1_toNat w, immediate5_eq_ofNat w⟩
  · exact exists_next_of_withResult (P := fun v => (v.toNat : Int) = ((s.gpr sr1).toNat + imm5.toInt) % 65536)
      (exec_addImm_val dr sr1 imm5 s) (add_sext_toNat _ _)

/-- Settles O3, bit by bit. -/
theorem andRegisterForm : Obligations.AndRegisterForm := by
  refine ⟨fun w ho hm => ?_, fun dr sr1 sr2 s => ?_⟩
  · exact decode_of_holdsFields ⟨ho, hm, destReg_toNat w, srcReg1_toNat w, srcReg2_toNat w⟩
  · exact exists_next_of_withResult
      (P := fun v => ∀ k, k < 16 → v.getLsbD k = ((s.gpr sr1).getLsbD k && (s.gpr sr2).getLsbD k))
      (exec_andReg_val dr sr1 sr2 s) fun _ _ => BitVec.getLsbD_and

/-- Settles O4, bit by bit: from bit 5 up the operand repeats bit 4 of the immediate. -/
theorem andImmediateForm : Obligations.AndImmediateForm := by
  refine ⟨fun w ho hm => ?_, fun dr sr1 imm5 s => ?_⟩
  · exact decode_of_holdsFields ⟨ho, hm, destReg_toNat w, srcReg1_toNat w, immediate5_eq_ofNat w⟩
  · refine exists_next_of_withResult
      (P := fun v => ∀ k, k < 16 → v.getLsbD k = ((s.gpr sr1).getLsbD k && imm5.getLsbD (min k 4)))
      (exec_andImm_val dr sr1 imm5 s) fun k hk => ?_
    rw [BitVec.getLsbD_and, getLsbD_immOperand imm5 hk]

/-- Settles O5: the complement of a Word is 65535 less it. -/
theorem notForm : Obligations.NotForm := by
  refine ⟨fun w ho => ?_, fun dr sr1 s => ?_⟩
  · exact decode_of_holdsFields ⟨ho, destReg_toNat w, srcReg1_toNat w⟩
  · exact exists_next_of_withResult (P := fun v => v.toNat = 65535 - (s.gpr sr1).toNat) (exec_not_val dr sr1 s)
      BitVec.toNat_not

/-! ### Two corner cases -/

/-- Settles O32: the complement plus one is the negation, and both instructions write only DR and `cond`. -/
theorem notThenAddOneNegates : Obligations.NotThenAddOneNegates := by
  intro dr sr1 s
  refine ⟨_, _, exec_not_val dr sr1 s, exec_addImm_val dr dr 1#5 _, ?_,
    (State.sameButResult_withResult _ _ _).trans (State.sameButResult_withResult _ _ _)⟩
  have hone : immOperand 1#5 = 1#16 := by decide
  rw [State.withResult_gpr_self, State.withResult_gpr_self, hone, ← BitVec.neg_eq_not_add, BitVec.toNat_neg]

/-- A conjunction with a non-negative immediate stays within the immediate's range. -/
theorem and_immOperand_le (a : Word) {imm5 : BitVec 5} (h : imm5.toNat < 16) : (a &&& immOperand imm5).toNat ≤ 15 :=
  calc (a &&& immOperand imm5).toNat
    _ ≤ (immOperand imm5).toNat := by
      rw [BitVec.toNat_and]
      exact Nat.and_le_right
    _ = imm5.toNat := sext_toNat_of_lt (by decide) h
    _ ≤ 15 := Nat.le_of_lt_succ h

/-- A Word below 2^15 is not negative, so its flag is not N (10_state.md R27). -/
theorem flagOf_ne_n {v : Word} (h : v.toNat < 32768) : flagOf v ≠ .n := by
  obtain ⟨-, hn, -⟩ := classifies_flagOf v
  rw [Ne, hn, BitVec.toInt_eq_toNat_of_lt (by omega)]
  omega

/-- Settles O33: the immediate bounds the result, so bit 15 is clear; immediate 0 leaves 0, whose flag is Z. -/
theorem andImmediateClears : Obligations.AndImmediateClears := by
  intro dr sr1 imm5 s himm
  have hle := and_immOperand_le (s.gpr sr1) himm
  refine ⟨_, exec_andImm_val dr sr1 imm5 s, ?_, ?_, ?_⟩
  · rwa [State.withResult_gpr_self]
  · exact flagOf_ne_n (by omega)
  · rintro rfl
    have hzero : s.gpr sr1 &&& immOperand 0#5 = 0x0000#16 := BitVec.and_zero
    rw [State.withResult_gpr_self, State.withResult_cond, hzero]
    exact ⟨rfl, rfl⟩

end Sys2Proof.Machine
end

section
/-! PROOFS. The branch (42_branch.md): a BR is taken where its mask names the flag in `cond`, moves `pc` only, and is
the only word that moves it anywhere but to the next address. -/

namespace Sys2Proof.Machine

/-! ### What a BR answers (42_branch.md R100, R101) -/

/-- The branch test in the spec's words: the mask and the one-hot `cond` share a bit. -/
theorem branchTaken_iff (mask : BitVec 3) (c : Cond) : branchTaken mask c = true ↔ mask &&& condBits c ≠ 0#3 :=
  bne_iff_ne

section
variable {mask : BitVec 3} {s : State} (off9 : BitVec 9)

theorem exec_br_taken (h : mask &&& condBits s.cond ≠ 0#3) :
    exec (.br mask off9) s = .next (s.setPc (pcRelative off9 s)) :=
  congrArg Host.Outcome.next (if_pos ((branchTaken_iff mask s.cond).2 h))

theorem exec_br_untaken (h : mask &&& condBits s.cond = 0#3) : exec (.br mask off9) s = .next s :=
  congrArg Host.Outcome.next (if_neg fun ht => (branchTaken_iff mask s.cond).1 ht h)

end

theorem SameButPc.refl (s : State) : SameButPc s s := ⟨fun _ => rfl, rfl, rfl, rfl, rfl, fun _ => rfl⟩

theorem State.sameButPc_setPc (s : State) (v : Word) : SameButPc s (s.setPc v) := SameButPc.refl s

theorem branchCondMask_eq_ofNat (w : Word) : branchCondMask w = BitVec.ofNat 3 (w.toNat / 512) := by
  apply BitVec.eq_of_toNat_eq
  rw [branchCondMask_toNat, BitVec.toNat_ofNat]

/-- Settles O6: the word by its fields, the instruction by whether the mask and the flag share a bit. -/
theorem branchForm : Obligations.BranchForm := by
  refine ⟨fun w ho => ?_, fun mask off9 s => ?_⟩
  · exact decode_of_holdsFields ⟨ho, branchCondMask_eq_ofNat w, pcOffset9_eq_ofNat w⟩
  · by_cases h : mask &&& condBits s.cond = 0#3
    · exact ⟨s, exec_br_untaken off9 h, fun hne => absurd h hne, fun _ => rfl, SameButPc.refl s⟩
    · exact ⟨_, exec_br_taken off9 h, fun _ => add_sext_toNat s.pc off9, fun heq => absurd heq h,
        s.sameButPc_setPc _⟩

/-! ### The branch from the fetch on -/

/-- The encoded BR decodes to itself; it has no register operand to be well formed. -/
theorem decode_encode_br (mask : BitVec 3) (off9 : BitVec 9) :
    decode (encode (.br mask off9)) = .instr (.br mask off9) :=
  decodeEncodeAgree (.br mask off9) rfl

/-- Offset -1 undoes the fetch's increment, at either end of memory too (D3, D4). -/
theorem pcRelative_fetch_neg_one (s : State) : pcRelative 0b111111111#9 (s.setPc (nextPc s.pc)) = s.pc := by
  have hneg : sext 9 0b111111111#9 = -1#16 := by decide
  rw [pcRelative, hneg, State.setPc_pc, nextPc, BitVec.add_assoc, BitVec.add_right_neg, BitVec.add_zero]

/-- Settles O29: the step is the BR from the incremented `pc`, which offset -1 takes back to where it was. -/
theorem branchStep : Obligations.BranchStep := by
  intro s mask off9 hr hf
  rw [step_of_instr hr (hf ▸ decode_encode_br mask off9)]
  by_cases h : mask &&& condBits s.cond = 0#3
  · exact ⟨_, exec_br_untaken off9 h, fun _ => rfl, fun hne => absurd h hne, fun hne => absurd h hne⟩
  · refine ⟨_, exec_br_taken off9 h, fun heq => absurd heq h, fun _ => pcRelative_fetch_toNat off9 s, ?_⟩
    rintro - rfl
    rw [pcRelative_fetch_neg_one]
    rfl

/-! ### Control transfer (42_branch.md R102) -/

/-- No instruction but a BR moves `pc`, and a BR moves it only to its target. -/
theorem ExecEnds.pc {i : Instr} {s t : State} (h : ExecEnds s i t) :
    t.pc = s.pc ∨ ∃ mask off9, i = .br mask off9 ∧ t.pc = pcRelative off9 s := by
  cases h with
  | writes d v => exact .inl rfl
  | branches mask off9 => exact .inr ⟨mask, off9, rfl, rfl⟩
  | falls mask off9 => exact .inl rfl
  | raises k => exact .inl (State.raise_pc ..)

/-- Settles O26: from the incremented `pc`, an instruction's end moves it only as the BR that the word's fields hold,
and an invalid word leaves it there. -/
theorem controlTransferOnlyByBranch : Obligations.ControlTransferOnlyByBranch := by
  intro s t hr h
  rcases step_cases s with ⟨hn, -⟩ | ⟨-, ⟨i, u, hd, -, e, hends⟩ | ⟨op, -, e⟩⟩
  · exact absurd hr hn
  · cases e.symm.trans h
    rcases hends.pc with hpc | ⟨mask, off9, rfl, hpc⟩
    · exact .inl hpc
    · obtain ⟨ho, -, hoff⟩ := holdsFields_of_decode hd
      refine .inr ⟨ho, ?_⟩
      rw [hpc, ← pcOffset9_eq_ofNat, fetched, hoff]
      exact pcRelative_fetch_toNat off9 s
  · cases e.symm.trans h
    exact .inl (State.raise_pc ..)

end Sys2Proof.Machine
end

section
/-! PROOFS. The load (43_load_indirect.md): an LDI into a register in 0..7 completes with the word two reads away from
its PC-relative address as its result; an `ea` that the spec's arithmetic describes is that address. -/

namespace Sys2Proof.Machine

/-- What an LDI writes (43_load_indirect.md R110): both reads succeed, whatever the pointer. -/
theorem exec_ldi_val (d : Fin 8) (off9 : BitVec 9) (s : State) :
    exec (.ldi d off9) s = .next (s.withResult d (s.mem.readWord (s.mem.readWord (pcRelative off9 s)))) :=
  congrArg (settle s) (loadIndirect_val d off9 s)

/-- The signed offset added modulo 2^16 determines the address (D4). -/
theorem eq_pcRelative {ea : Word} {off9 : BitVec 9} {s : State}
    (h : (ea.toNat : Int) = (s.pc.toNat + off9.toInt) % 65536) : ea = pcRelative off9 s :=
  addrOf_inj.1 (h.trans (add_sext_toNat s.pc off9).symm)

/-- The same, counted from the address of the instruction and not from the `pc` that the fetch leaves (D3, D4). -/
theorem eq_pcRelative_fetch {ea : Word} {off9 : BitVec 9} {s : State}
    (h : (ea.toNat : Int) = (s.pc.toNat + 1 + off9.toInt) % 65536) :
    ea = pcRelative off9 (s.setPc (nextPc s.pc)) :=
  addrOf_inj.1 (h.trans (pcRelative_fetch_toNat off9 s).symm)

/-- Settles O7: the word by its fields, the instruction by its result at the address `ea` must be. -/
theorem loadIndirectForm : Obligations.LoadIndirectForm := by
  refine ⟨fun w ho => ?_, fun dr off9 s ea hea => ?_⟩
  · exact decode_of_holdsFields ⟨ho, destReg_toNat w, pcOffset9_eq_ofNat w⟩
  · obtain rfl := eq_pcRelative hea
    exact exists_next_of_withResult (P := fun v => v = s.mem.readWord (s.mem.readWord (pcRelative off9 s)))
      (exec_ldi_val dr off9 s) rfl

/-- Settles O28: the step is the LDI that the word's fields hold, from the incremented `pc`, which it leaves alone. -/
theorem loadIndirectStep : Obligations.LoadIndirectStep := by
  intro s ea d hr ho hea hd
  obtain rfl := eq_pcRelative_fetch hea
  have hdecode : decode (fetched s) = .instr (.ldi d (BitVec.ofNat 9 (fetched s).toNat)) :=
    decode_of_holdsFields ⟨ho, (destReg_toNat _).trans hd.symm, pcOffset9_eq_ofNat _⟩
  rw [step_of_instr hr hdecode]
  exact ⟨_, exec_ldi_val d _ _, State.withResult_gpr_self _ d _, rfl,
    fun _ hne => State.withResult_gpr_of_ne _ d _ hne, rfl⟩

end Sys2Proof.Machine
end

section
/-! PROOFS. Fatal errors (60_exceptions.md): what a FAULTED core keeps of its record, and how the host reads a record. -/

namespace Sys2Proof.Machine

/-- No update of the state leaves FAULTED or touches the record there; a further error is not raised anew (R128). -/
theorem faulted_record_keptByUpdates (f : Option FatalError) :
    KeptByUpdates (fun s => s.runState = .faulted ∧ s.fault = f) where
  setGpr _ _ _ h := h
  setPc _ _ h := h
  setCond _ _ h := h
  setMem _ _ _ h := h
  raise s e h := by
    have hr : s.runState ≠ .running := by simp [h.1]
    rwa [State.raise_of_not_running s e hr]

/-- Settles O46: a FAULTED core is not RUNNING, and a transaction other than Reset is made of updates that each keep
the record. -/
theorem faultRecordIsKept : Obligations.FaultRecordIsKept := by
  refine ⟨fun s t hs h => ?_, fun p r q q' a hq hr h => ?_⟩
  · have hstay : step s = .next s := step_of_not_running (by simp [hs])
    cases hstay.symm.trans h
    rfl
  · exact (faulted_record_keptByUpdates q.core.fault).of_transactEnds (transact_ends hr h) ⟨hq, rfl⟩

/-- ReadStatus replies with the state and the record, and leaves the session as it is (70_reset_and_hazards.md R160). -/
theorem transact_readStatus (p : ResetParams) (q : Session) :
    transact p .readStatus q = .next (q, .status q.core.runState q.core.fault) := rfl

/-- Settles O52: the reply is the same in every session, and each number is its constructor's in `FatalError.code`. -/
theorem readStatusAnswers : Obligations.ReadStatusAnswers :=
  ⟨transact_readStatus, rfl, fun _ => rfl, fun _ => rfl, fun _ _ _ => rfl, fun _ => rfl⟩

end Sys2Proof.Machine
end

section
/-! PROOFS. Reset and the host's transactions (70_reset_and_hazards.md): the invariant they keep, the loader, and what
Step, Run, Terminate, WriteReg, ReadMem and WriteMem answer. -/

namespace Sys2Proof.Machine

/-! ### Reset and the invariant (R150, R160) -/

/-- Settles O48: every transaction but Reset is made of updates that keep the invariant, and Reset meets it anew. -/
theorem transactionsKeepTheInvariant : Obligations.TransactionsKeepTheInvariant :=
  fun p _ _ _ _ hq h => inv_keptByUpdates.of_transact (resetMeetsTheInvariant.2 p) h hq

/-- Settles O37: Reset does not look at the session it comes in. -/
theorem resetIsAcceptedInEveryState : Obligations.ResetIsAcceptedInEveryState := fun _ _ => rfl

/-! ### The image as words (R153) -/

theorem wordOf?_of_out_of_bounds {u : Int} (h : u < 0 ∨ 65536 ≤ u) : wordOf? u = none :=
  wordOf?_eq_none.2 (by omega)

/-- An image of words is taken as it is. -/
theorem hostWords_map_addrOf (ws : List Word) : hostWords (ws.map addrOf) = .ok ws := by
  induction ws with
  | nil => rfl
  | cons w ws ih => simp [hostWords, ih]

/-- An image with a value that is no Word gives no words: some such value is named. -/
theorem hostWords_of_not_word {ws : List Int} {v : Int} (hv : v ∈ ws) (hout : v < 0 ∨ 65536 ≤ v) :
    ∃ u ∈ ws, (u < 0 ∨ 65536 ≤ u) ∧ hostWords ws = .error u := by
  induction ws with
  | nil => cases hv
  | cons x ws ih =>
    cases hx : wordOf? x with
    | none =>
      have hxout := wordOf?_eq_none.1 hx
      exact ⟨x, List.mem_cons_self, by omega, by simp [hostWords, hx]⟩
    | some w =>
      have hne : v ≠ x := by
        rintro rfl
        simp [wordOf?_of_out_of_bounds hout] at hx
      obtain ⟨u, hu, huout, he⟩ := ih (List.mem_of_ne_of_mem hne hv)
      exact ⟨u, List.mem_cons_of_mem x hu, huout, by simp [hostWords, hx, he]⟩

section
variable (p : ResetParams) {q : Session}

/-- Outside the time for loading an image is refused whatever it holds. -/
theorem transact_loadImage_of_not_fresh (ws : List Int) (h : q.phase ≠ .fresh) :
    transact p (.loadImage ws) q = .refused .hostLoadAfterFirstStep := by
  cases hp : q.phase with
  | fresh => exact absurd hp h
  | started => simp [transact, transactLoad, hp]
  | terminated => simp [transact, transactLoad, hp]

theorem transact_loadImage_of_not_words {ws : List Int} {u : Int} (hq : q.phase = .fresh)
    (h : hostWords ws = .error u) : transact p (.loadImage ws) q = .refused (.hostValueNotWord u) := by
  simp [transact, transactLoad, hq, h]

theorem transact_loadImage_of_loaded {ws : List Word} {s : State} (hq : q.phase = .fresh)
    (h : loadWords 0 ws q.core = (s, none)) :
    transact p (.loadImage (ws.map addrOf)) q = .next ({ q with core := s }, .done) := by
  simp [transact, transactLoad, hq, hostWords_map_addrOf, h, Session.answer]

theorem transact_loadImage_of_overrun {ws : List Word} {s : State} {e : FatalError} (hq : q.phase = .fresh)
    (h : loadWords 0 ws q.core = (s, some e)) :
    transact p (.loadImage (ws.map addrOf)) q = ({ q with core := s } : Session).fail e := by
  simp [transact, transactLoad, hq, hostWords_map_addrOf, h]

end

/-- Settles O40, by what the image's values are. -/
theorem loadRefusals : Obligations.LoadRefusals := by
  refine fun p q ws => ⟨transact_loadImage_of_not_fresh p ws, fun hq v hv hout => ?_⟩
  obtain ⟨u, hu, huout, he⟩ := hostWords_of_not_word hv hout
  exact ⟨u, hu, huout, transact_loadImage_of_not_words p hq he⟩

/-! ### The loader (R152) -/

/-- Where word `k` of an image goes, if it fits: `startAddress + k` as a Word. -/
def imageAddress (k : Nat) : Word := BitVec.ofNat 16 (0x3000 + k)

theorem imageAddress_toNat {k : Nat} (h : k < 0xD000) : (imageAddress k).toNat = 0x3000 + k := by
  rw [imageAddress, BitVec.toNat_ofNat, Nat.mod_eq_of_lt (by omega)]

/-- The loader's address of a word that fits is in bounds. -/
theorem startAddress_add {k : Nat} (h : k < 0xD000) : startAddress + k = addrOf (imageAddress k) := by
  rw [addrOf, imageAddress_toNat h, startAddress]
  omega

/-- `m` is `m₀` with the words `ws` of an image, from its word `i` on, written where they fit. -/
structure HoldsImage (i : Nat) (ws : List Word) (m₀ m : Memory) : Prop where
  inside : ∀ (j : Nat) (h : j < ws.length), i + j < 0xD000 → m.readWord (imageAddress (i + j)) = ws[j]
  outside : ∀ a : Word, a.toNat < 0x3000 + i ∨ 0x3000 + i + ws.length ≤ a.toNat → m.readWord a = m₀.readWord a

theorem HoldsImage.nil (i : Nat) (m : Memory) : HoldsImage i [] m m where
  inside _ h := absurd h (Nat.not_lt_zero _)
  outside _ _ := rfl

/-- Where memory ends nothing more is written. -/
theorem HoldsImage.full (ws : List Word) (m : Memory) : HoldsImage 0xD000 ws m m where
  inside _ _ h := by omega
  outside _ _ := rfl

/-- One word written, then the rest. -/
theorem HoldsImage.cons {i : Nat} {w : Word} {ws : List Word} {m₀ m : Memory} (hi : i < 0xD000) (hm : m₀.wf)
    (h : HoldsImage (i + 1) ws (m₀.writeWord (imageAddress i) w) m) : HoldsImage i (w :: ws) m₀ m where
  inside j hj hfit := by
    cases j with
    | zero =>
      have hkept := h.outside (imageAddress i) (.inl (by rw [imageAddress_toNat hi]; omega))
      rw [Nat.add_zero, hkept, Memory.readWord_writeWord hm, if_pos rfl, List.getElem_cons_zero]
    | succ j =>
      have hrest := h.inside j (Nat.lt_of_succ_lt_succ hj) (by omega)
      rwa [Nat.add_right_comm] at hrest
  outside a ha := by
    rw [List.length_cons] at ha
    have hne : imageAddress i ≠ a := by
      rintro rfl
      rw [imageAddress_toNat hi] at ha
      omega
    rw [h.outside a (by omega), Memory.readWord_writeWord hm, if_neg hne]

/-- Everything the loader does: the words that fit are written, and one that does not is an OutOfBounds of the first
address past memory (D16). -/
theorem loadWords_spec (ws : List Word) {i : Nat} {s : State} (hi : i ≤ 0xD000) (hm : s.mem.wf) :
    ∃ m, HoldsImage i ws s.mem m ∧ loadWords i ws s =
      (s.setMem m, if i + ws.length ≤ 0xD000 then none else some (.outOfBounds 0x10000)) := by
  induction ws generalizing i s with
  | nil =>
    refine ⟨s.mem, .nil i s.mem, ?_⟩
    rw [loadWords, List.length_nil, Nat.add_zero, if_pos hi]
    rfl
  | cons w ws ih =>
    rcases Nat.lt_or_eq_of_le hi with hlt | rfl
    · obtain ⟨m, himg, hl⟩ := ih (s := s.setMem (s.mem.writeWord (imageAddress i) w)) hlt (Memory.writeWord_wf hm)
      refine ⟨m, himg.cons hlt hm, ?_⟩
      rw [loadWords, startAddress_add hlt, memWrite_addrOf, List.length_cons, Nat.add_comm ws.length, ← Nat.add_assoc]
      exact hl
    · refine ⟨s.mem, .full _ s.mem, ?_⟩
      rw [loadWords, memWrite_of_out_of_bounds _ _ (.inr (by decide)), List.length_cons, if_neg (by omega)]
      rfl

/-- Settles O39: the transaction is the loader run from word 0, by whether the image fits and whether the core is
RUNNING. -/
theorem loadImageRule : Obligations.LoadImageRule := by
  intro p q ws hq hm
  obtain ⟨m, himg, hl⟩ := loadWords_spec ws (Nat.zero_le _) hm
  rw [Nat.zero_add] at hl
  have hin := himg.inside
  simp only [Nat.zero_add] at hin
  refine ⟨m, hin, himg.outside, fun hfit => ?_, fun hlong hr => ?_, fun hlong hr => ?_⟩
  · rw [if_pos hfit] at hl
    exact transact_loadImage_of_loaded p hq hl
  · rw [if_neg (by omega)] at hl
    exact (transact_loadImage_of_overrun p hq hl).trans (Session.fail_of_running _ hr)
  · rw [if_neg (by omega)] at hl
    exact (transact_loadImage_of_overrun p hq hl).trans (Session.fail_of_not_running _ hr)

/-! ### Step, Run and Terminate (R153, R158, R160) -/

/-- A Run of budget 1 is one step, in every state: a core that is not RUNNING does not step (40_cycle.md R80). -/
theorem runFor_one (s : State) : runFor 1 s = step s := by
  by_cases hr : s.runState = .running
  · obtain ⟨t, ht⟩ := everyStepAnswersAState s
    rw [runFor_succ hr ht, runFor_zero, ht]
  · rw [runFor_of_not_running hr, step_of_not_running hr]

/-- After a Terminate no step is made. -/
theorem transactRun_of_terminated (k : Nat) {q : Session} (h : q.phase = .terminated) :
    transactRun k q = .next (q, .done) := by
  rw [transactRun, h]
  rfl

/-- What a Step and a Run leave, from every session, and that no image is loaded after it. -/
theorem transactRun_spec (p : ResetParams) (k : Nat) (q : Session) : ∃ q', transactRun k q = .next (q', .done) ∧
    (q.phase ≠ .terminated → runFor k q.core = .next q'.core) ∧ (q.phase = .terminated → q' = q) ∧
    ∀ ws, transact p (.loadImage ws) q' = .refused .hostLoadAfterFirstStep := by
  by_cases hq : q.phase = .terminated
  · exact ⟨q, transactRun_of_terminated k hq, fun h => absurd hq h, fun _ => rfl,
      fun ws => transact_loadImage_of_not_fresh p ws (by simp [hq])⟩
  · obtain ⟨t, ht⟩ := runFor_next k q.core
    exact ⟨⟨t, .started⟩, transactRun_of_not_terminated hq ht, fun _ => ht, fun h => absurd h hq,
      fun ws => transact_loadImage_of_not_fresh p ws (by simp)⟩

/-- Settles O41: a Step is a Run of budget 1. -/
theorem steppingEndsLoading : Obligations.SteppingEndsLoading := by
  refine fun p q => ⟨?_, fun k => transactRun_spec p k q⟩
  rw [← runFor_one]
  exact transactRun_spec p 1 q

/-- Settles O45: a Terminate writes the session's phase alone. -/
theorem terminateFreezes : Obligations.TerminateFreezes := by
  refine fun p q r k hr => ⟨{ q with phase := .terminated }, rfl, rfl, ?_⟩
  rcases hr with rfl | rfl
  · exact transactRun_of_terminated 1 (q := { q with phase := .terminated }) rfl
  · exact transactRun_of_terminated k (q := { q with phase := .terminated }) rfl

/-! ### WriteReg (R160) -/

/-- A Word's number is a value the host may supply. -/
@[simp] theorem wordOf?_toNat (v : Word) : wordOf? (v.toNat : Int) = some v := wordOf?_addrOf v

/-- A word stands for a condition exactly when it is that condition's one-hot number (10_state.md R25; D2). -/
theorem condOfBits?_eq_some {v : Word} {c : Cond} : condOfBits? v = some c ↔ v = (condBits c).setWidth 16 := by
  constructor
  · intro h
    unfold condOfBits? at h
    split_ifs at h with hn hz hp <;> cases h
    · exact hn
    · exact hz
    · exact hp
  · rintro rfl
    cases c <;> rfl

section
variable (p : ResetParams) (q : Session) {i : Int} (v : Word)

theorem transact_writeReg_gpr {r : Fin 8} (h : slotOf? i = some (.gpr r)) :
    transact p (.writeReg i v.toNat) q = .next ({ q with core := q.core.setGpr r v }, .done) := by
  simp [transact, transactWriteReg, h, Session.answer]

theorem transact_writeReg_pc (h : slotOf? i = some .pc) :
    transact p (.writeReg i v.toNat) q = .next ({ q with core := q.core.setPc v }, .done) := by
  simp [transact, transactWriteReg, h, Session.answer]

theorem transact_writeReg_cond {c : Cond} (h : slotOf? i = some .cond) (hc : condOfBits? v = some c) :
    transact p (.writeReg i v.toNat) q = .next ({ q with core := q.core.setCond c }, .done) := by
  simp [transact, transactWriteReg, h, hc, Session.answer]

/-- `cond` takes no word that is not exactly one flag. -/
theorem transact_writeReg_cond_refused (h : slotOf? i = some .cond) (hc : condOfBits? v = none) :
    transact p (.writeReg i v.toNat) q = .refused (.hostCondNotOneFlag v) := by
  simp [transact, transactWriteReg, h, hc]

theorem transact_writeReg_of_no_slot (h : slotOf? i = none) :
    transact p (.writeReg i v.toNat) q = q.fail (.invalidRegister i) := by
  simp [transact, transactWriteReg, h]

/-- The value is looked at before the index (log 10). -/
theorem transact_writeReg_of_not_word (i : Int) {u : Int} (h : wordOf? u = none) :
    transact p (.writeReg i u) q = .refused (.hostValueNotWord u) := by
  simp [transact, transactWriteReg, h]

end

/-- Settles O43, from the slot each index names and the condition each word stands for. -/
theorem writeRegisterSlots : Obligations.WriteRegisterSlots := by
  refine fun p q v => ⟨fun i => transact_writeReg_gpr p q v (slotOf?_val i), transact_writeReg_pc p q v rfl,
    fun c hc => transact_writeReg_cond p q v rfl (condOfBits?_eq_some.2 hc), fun hv => ?_, fun i hi => ?_,
    fun i u hu => transact_writeReg_of_not_word p q i (wordOf?_of_out_of_bounds hu)⟩
  · have hnone : condOfBits? v = none :=
      Option.eq_none_iff_forall_ne_some.2 fun c hc => hv c (condOfBits?_eq_some.1 hc)
    exact transact_writeReg_cond_refused p q v rfl hnone
  · rw [transact_writeReg_of_no_slot p q v (slotOf?_eq_none hi)]
    exact ⟨Session.fail_of_running _, Session.fail_of_not_running _⟩

/-! ### ReadMem and WriteMem (R160) -/

section
variable (p : ResetParams) (q : Session) (v : Word)

theorem transact_readMem_of_word (a : Word) :
    transact p (.readMem a.toNat) q = .next (q, .value (q.core.mem.readWord a)) := by
  simp [transact, transactReadMem, memRead, Session.answer]

theorem transact_readMem_of_out_of_bounds {a : Int} (h : a < 0 ∨ 65536 ≤ a) :
    transact p (.readMem a) q = q.fail (.outOfBounds a) := by
  simp [transact, transactReadMem, memRead_of_out_of_bounds _ h]

theorem transact_writeMem_of_word (a : Word) : transact p (.writeMem a.toNat v.toNat) q =
    .next ({ q with core := q.core.setMem (q.core.mem.writeWord a v) }, .done) := by
  simp [transact, transactWriteMem, memWrite, Session.answer]

theorem transact_writeMem_of_out_of_bounds {a : Int} (h : a < 0 ∨ 65536 ≤ a) :
    transact p (.writeMem a v.toNat) q = q.fail (.outOfBounds a) := by
  simp [transact, transactWriteMem, memWrite_of_out_of_bounds _ _ h]

end

/-- Settles O44: in bounds both access the word, out of bounds both are the same failure. -/
theorem hostMemoryAccess : Obligations.HostMemoryAccess := by
  refine fun p q v => ⟨fun a => ⟨transact_readMem_of_word p q a, transact_writeMem_of_word p q v a⟩, fun a ha => ?_⟩
  rw [transact_readMem_of_out_of_bounds p q ha, transact_writeMem_of_out_of_bounds p q v ha]
  exact ⟨fun hr => ⟨Session.fail_of_running _ hr, Session.fail_of_running _ hr⟩,
    fun hr => ⟨Session.fail_of_not_running _ hr, Session.fail_of_not_running _ hr⟩⟩

end Sys2Proof.Machine
end

section
/-! PROOFS. The reset state (10_state.md R34): which of the resets it is. -/

namespace Sys2Proof.Machine

/-- Memory with nothing listed holds a zero at every address (log 3). -/
theorem Memory.readWord_nil (a : Word) : Memory.readWord [] a = 0x0000#16 := by
  simp only [Memory.readWord, Memory.readByte]
  decide

/-- The canonical memory of zeros lists nothing. -/
theorem Memory.ofFn_zero : Memory.ofFn (fun _ => 0x0000#16) = [] :=
  canonicalMemoriesAreEqual _ _ (Memory.ofFn_wf _) Memory.wf_nil fun a =>
    (Memory.readWord_ofFn _ a).trans (Memory.readWord_nil a).symm

/-- Settles O38: the registers are eight zeros, and the memory of zeros lists nothing. -/
theorem resetIsOneInstance : Obligations.ResetIsOneInstance := by
  have hregs : Vector.ofFn ResetParams.named.gprReset = Vector.replicate 8 0x0000#16 := rfl
  have hmem : Memory.ofFn ResetParams.named.memInit = [] := Memory.ofFn_zero
  unfold Obligations.ResetIsOneInstance State.resetWith
  rw [hregs, hmem]
  rfl

end Sys2Proof.Machine
end
